-- ==== Sys2Proof/Word.lean ====
section
/-!
DEFINITION. The word types of the hardware: the 32-bit words of a descriptor and of an address, and
the 8-bit sample (00_scope.md R7, R8).
-/

namespace Sys2Proof

/-- A descriptor word or a sample-memory address, 32 bits (R7 `AW`, R90). -/
abbrev Word := BitVec 32

/-- One pixel component, unsigned, range [0,255] (R7 `SAMPLE_BITS`). -/
abbrev Sample := BitVec 8

end Sys2Proof
end

