-- ==== Sys2Proof/Syntax.lean ====
section
/-!
DEFINITION. The command set IPD-CMD as syntax: the descriptor (30_encoding.md R90), its operands
(R91 to R97), the fault causes a descriptor can meet (60_exceptions.md R231), and one constructor per
row of spec/opcode_table.json (R103).
-/

namespace Sys2Proof

/-- A command as the host presents it: five 32-bit words (R90). -/
structure Descriptor where
  cmd : Word
  src : Word
  ss : Word
  dst : Word
  ds : Word
  deriving DecidableEq, Repr

/-- `CAUSE` (R231). Codes 6 and 7 are never produced and have no constructor (U13). -/
inductive Cause where
  | none
  | reservedBits
  | illegalMode
  | illegalSize
  | unsupported
  | access
  deriving DecidableEq, Repr

/-- The ten prediction modes (R92). -/
inductive Mode where
  | dc | v | h | tm | d45 | d135 | d117 | d153 | d27 | d63
  deriving DecidableEq, Repr

/-- The legal values of `BWL` and `BHL` (R93), named by the sample count they stand for. -/
inductive SizeCode where
  | s4 | s8 | s16 | s32 | s64
  deriving DecidableEq, Repr

/-- The operands every command carries (R90, R91): sizes, flags, buffers. -/
structure Operands where
  /-- block width code `BWL` -/
  bwl : SizeCode
  /-- block height code `BHL` -/
  bhl : SizeCode
  /-- `up_available` -/
  up : Bool
  /-- `left_available` -/
  left : Bool
  /-- `right_available`, without effect (R94, R136) -/
  right : Bool
  /-- address of the block in the source buffer -/
  src : Word
  /-- source stride word -/
  ss : Word
  /-- address of the block in the destination buffer -/
  dst : Word
  /-- destination stride word -/
  ds : Word
  deriving DecidableEq, Repr

/-- One constructor per row of the opcode map (R103). -/
inductive Instr where
  | predDc (o : Operands)
  | predV (o : Operands)
  | predH (o : Operands)
  | predTm (o : Operands)
  | predD45 (o : Operands)
  | predD135 (o : Operands)
  | predD117 (o : Operands)
  | predD153 (o : Operands)
  | predD27 (o : Operands)
  | predD63 (o : Operands)
  | iipredDc (o : Operands)
  | iipredV (o : Operands)
  | iipredH (o : Operands)
  | iipredTm (o : Operands)
  | iipredD45 (o : Operands)
  | iipredD135 (o : Operands)
  | iipredD117 (o : Operands)
  | iipredD153 (o : Operands)
  | iipredD27 (o : Operands)
  | iipredD63 (o : Operands)
  deriving DecidableEq, Repr

namespace Instr

/-- The operands of a command. -/
def operands : Instr → Operands
  | predDc o | predV o | predH o | predTm o | predD45 o
  | predD135 o | predD117 o | predD153 o | predD27 o | predD63 o
  | iipredDc o | iipredV o | iipredH o | iipredTm o | iipredD45 o
  | iipredD135 o | iipredD117 o | iipredD153 o | iipredD27 o | iipredD63 o => o

/-- The prediction mode a command names (R92). -/
def mode : Instr → Mode
  | predDc _ | iipredDc _ => .dc
  | predV _ | iipredV _ => .v
  | predH _ | iipredH _ => .h
  | predTm _ | iipredTm _ => .tm
  | predD45 _ | iipredD45 _ => .d45
  | predD135 _ | iipredD135 _ => .d135
  | predD117 _ | iipredD117 _ => .d117
  | predD153 _ | iipredD153 _ => .d153
  | predD27 _ | iipredD27 _ => .d27
  | predD63 _ | iipredD63 _ => .d63

/-- `II`: whether a command is an `IIPRED` (R95). -/
def ii : Instr → Bool
  | predDc _ | predV _ | predH _ | predTm _ | predD45 _
  | predD135 _ | predD117 _ | predD153 _ | predD27 _ | predD63 _ => false
  | iipredDc _ | iipredV _ | iipredH _ | iipredTm _ | iipredD45 _
  | iipredD135 _ | iipredD117 _ | iipredD153 _ | iipredD27 _ | iipredD63 _ => true

end Instr

end Sys2Proof
end

