-- ==== Sys2Proof/Machine/Shape.lean ====
section
/-!
DEFINITION. The size codes and the legal shapes of a block (30_encoding.md R93).
-/

namespace Sys2Proof

/-- The number a size code is encoded as (R93). -/
def SizeCode.code : SizeCode → Nat
  | .s4 => 0
  | .s8 => 1
  | .s16 => 2
  | .s32 => 3
  | .s64 => 4

/-- `|BWL - BHL| <= 1` (R93). -/
def legalShape (bwl bhl : SizeCode) : Bool :=
  bwl.code ≤ bhl.code + 1 && bhl.code ≤ bwl.code + 1

end Sys2Proof
end

