-- ==== Sys2Proof/WellFormed.lean ====
section
/-!
DEFINITION. Which instructions a descriptor can decode to: the shape must be square or 2:1 or 1:2
(30_encoding.md R93). Every other restriction of R98 is built into the types of Syntax.lean.
-/

namespace Sys2Proof

/-- An instruction is well formed when its block has a legal shape (R93). -/
def Instr.wellFormed (i : Instr) : Bool := legalShape i.operands.bwl i.operands.bhl

end Sys2Proof
end

