-- ==== Sys2Proof/Decode.lean ====
section
/-!
DEFINITION. Decoding and encoding of descriptors (30_encoding.md R90 to R103). `decode` makes the first
four checks of R98 in the order R98 gives; the last two (`UNSUPPORTED`, `ACCESS`) depend on the machine's
configuration and stand in Machine/Execute.lean. `encode` is written from the field table R91.
-/

namespace Sys2Proof

/-- `w[hi:lo]`, the unsigned integer held in bits `hi` down to `lo` (00_scope.md R9). -/
def field (w : Word) (hi lo : Nat) : Nat := w.toNat / 2 ^ lo % 2 ^ (hi + 1 - lo)

/-- `w[b]`, one bit (R9). -/
def bitAt (w : Word) (b : Nat) : Bool := field w b b == 1

/-- The `MODE` code of a mode (R92). -/
def Mode.code : Mode → Nat
  | .dc => 0
  | .v => 1
  | .h => 2
  | .tm => 3
  | .d45 => 4
  | .d135 => 5
  | .d117 => 6
  | .d153 => 7
  | .d27 => 8
  | .d63 => 9

/-- The mode a `MODE` code names; codes 10 to 15 name none (R92). -/
def modeOfCode : Nat → Option Mode
  | 0 => some .dc
  | 1 => some .v
  | 2 => some .h
  | 3 => some .tm
  | 4 => some .d45
  | 5 => some .d135
  | 6 => some .d117
  | 7 => some .d153
  | 8 => some .d27
  | 9 => some .d63
  | _ => none

/-- The size a `BWL` or `BHL` code stands for; codes 5 to 7 stand for none (R93). -/
def sizeOfCode : Nat → Option SizeCode
  | 0 => some .s4
  | 1 => some .s8
  | 2 => some .s16
  | 3 => some .s32
  | 4 => some .s64
  | _ => none

/-- The operation that `CMD[13]` and `CMD[3:0]` select (R103). -/
def instrOf (ii : Bool) (m : Mode) (o : Operands) : Instr :=
  match ii, m with
  | false, .dc => .predDc o
  | false, .v => .predV o
  | false, .h => .predH o
  | false, .tm => .predTm o
  | false, .d45 => .predD45 o
  | false, .d135 => .predD135 o
  | false, .d117 => .predD117 o
  | false, .d153 => .predD153 o
  | false, .d27 => .predD27 o
  | false, .d63 => .predD63 o
  | true, .dc => .iipredDc o
  | true, .v => .iipredV o
  | true, .h => .iipredH o
  | true, .tm => .iipredTm o
  | true, .d45 => .iipredD45 o
  | true, .d135 => .iipredD135 o
  | true, .d117 => .iipredD117 o
  | true, .d153 => .iipredD153 o
  | true, .d27 => .iipredD27 o
  | true, .d63 => .iipredD63 o

/-- The operand fields of a descriptor, once its sizes are known to be legal (R91, R97). -/
def operandsOf (d : Descriptor) (bwl bhl : SizeCode) : Operands where
  bwl := bwl
  bhl := bhl
  up := bitAt d.cmd 10
  left := bitAt d.cmd 11
  right := bitAt d.cmd 12
  src := d.src
  ss := d.ss
  dst := d.dst
  ds := d.ds

/-- The checks of R98 that concern the descriptor alone, in R98's order: reserved bits, mode, size codes,
aspect ratio. Total; a rejected descriptor names its cause. -/
def decode (d : Descriptor) : Except Cause Instr :=
  if field d.cmd 31 14 ≠ 0 then .error .reservedBits
  else
    match modeOfCode (field d.cmd 3 0) with
    | none => .error .illegalMode
    | some m =>
      match sizeOfCode (field d.cmd 6 4), sizeOfCode (field d.cmd 9 7) with
      | some bwl, some bhl =>
        if legalShape bwl bhl then .ok (instrOf (bitAt d.cmd 13) m (operandsOf d bwl bhl))
        else .error .illegalSize
      | _, _ => .error .illegalSize

/-- Word 0 of a command, field by field (R91); the reserved bits are 0 (R96). -/
def encodeCmd (i : Instr) : Word :=
  BitVec.ofNat 32 (i.mode.code + i.operands.bwl.code * 2 ^ 4 + i.operands.bhl.code * 2 ^ 7
    + i.operands.up.toNat * 2 ^ 10 + i.operands.left.toNat * 2 ^ 11
    + i.operands.right.toNat * 2 ^ 12 + i.ii.toNat * 2 ^ 13)

/-- The five words of a command (R90). -/
def encode (i : Instr) : Descriptor where
  cmd := encodeCmd i
  src := i.operands.src
  ss := i.operands.ss
  dst := i.operands.dst
  ds := i.operands.ds

/-- The descriptor whose 160 bits are `w`, word 0 in the least significant 32 bits. A descriptor
reaches the engine as whole words (20_memory.md R66), so no byte order enters
(notes/assumptions/9.md). -/
def descriptorOfNat (w : Nat) : Descriptor where
  cmd := BitVec.ofNat 32 w
  src := BitVec.ofNat 32 (w / 2 ^ 32)
  ss := BitVec.ofNat 32 (w / 2 ^ 64)
  dst := BitVec.ofNat 32 (w / 2 ^ 96)
  ds := BitVec.ofNat 32 (w / 2 ^ 128)

/-- The instruction the decoder reads from an opcode-table word of `nbits` bits, the operand bits
above it being 0. -/
def decodeTableWord (nbits w : Nat) : Option Instr :=
  match decode (descriptorOfNat (w % 2 ^ nbits)) with
  | .ok i => some i
  | .error _ => none

end Sys2Proof
end

