-- ==== Sys2Proof/Config.lean ====
section
/-!
DEFINITION. What is fixed for one machine and open in the spec (10_state.md R45): whether the blender
is present (`HAS_II`, decision D24) and which addresses exist (`MemAdmit`, decision D25). The
configuration is plain data held in State, so that every statement ranges over all of them
(notes/assumptions/2.md).
-/

namespace Sys2Proof

/-- A run of consecutive existing addresses, both ends included. -/
structure Region where
  lo : Word
  hi : Word
  deriving DecidableEq, Repr

/-- The open parameters of R7. Every set of addresses is a finite union of regions, so `admitted`
can express every `MemAdmit`. -/
structure Config where
  /-- `HAS_II`: the interintra blender is present (R35, R215). -/
  hasII : Bool
  /-- `MemAdmit`: an address exists when some region holds it (R68). -/
  admitted : List Region
  deriving DecidableEq, Repr

end Sys2Proof
end

