-- ==== Sys2Proof/Machine/State.lean ====
section
/-!
DEFINITION. The state of the machine (10_state.md R30) as plain data, the reasons a step can stop, and the
state after reset (R44, 70_reset_and_hazards.md R260).
-/

namespace Sys2Proof.Machine

/-- Sample memory `M` (R41): address and sample, addresses strictly rising, no cell that holds what an
unlisted address reads as (`Memory.wf` in Ops.lean). -/
abbrev Memory := List Host.Cell

/-- A scratch array of 64 by 64 samples, row first (R13). -/
abbrev Square := Vector (Vector Sample 64) 64

/-- The scratch arrays S7 to S10, live only inside one command (R36, R37, R38, R43). -/
structure Scratch where
  /-- `above[-1..63]`; element `i` of the spec stands at position `i + 1`, the corner at 0 (R36). -/
  above : Vector Sample 65
  /-- `left[0..63]` (R36). -/
  left : Vector Sample 64
  /-- `SQ`, where the directional kernels compute (R37). -/
  sq : Square
  /-- `IB`, the inter-predicted block (R38). -/
  ib : Square
  deriving DecidableEq, Repr

/-- What the host may do between commands (70_reset_and_hazards.md R270). -/
inductive HostAction where
  /-- present the five words of a command on the command port -/
  | issue (d : Descriptor)
  /-- write one sample -/
  | writeSample (a : Word) (v : Sample)
  /-- read one sample -/
  | readSample (a : Word)
  /-- read the STATUS word (R34) -/
  | readStatus
  /-- read the CAP word (R35) -/
  | readCap
  /-- apply reset (R260) -/
  | reset
  deriving DecidableEq, Repr

/-- Why the model stops. No command of the hardware stops it: the hardware's own faults are next states
with ERR set (60_exceptions.md R233). -/
inductive Fault where
  /-- The host accesses an address that MemAdmit says does not exist; raised by the host's
  `writeSample` and `readSample` only. Safe: the model stops where a bus might go on
  (notes/assumptions/6.md). -/
  | absentHostAddress (a : Word)
  deriving DecidableEq, Repr

/-- Why the model gives no meaning. -/
inductive Refusal where
  /-- An arm of `exec` without a meaning; raised by no arm of this model. Safe: the model stops. -/
  | notModelled (mnemonic : String)
  deriving DecidableEq, Repr

/-- The state (R30): sample memory, ERR, CAUSE, the hardwired parameters, the scratch arrays, and the
host's remaining actions, which are the model's own bookkeeping (R32, R42; notes/assumptions/3.md). The
tables ISCALE and W1D are constants (Tables.lean). -/
structure State where
  mem : Memory
  err : Bool
  cause : Cause
  cfg : Config
  scratch : Scratch
  host : List HostAction
  deriving DecidableEq, Repr

/-- The scratch arrays of the state after reset. R44 gives them no value; DESIGN CHOICE all 0
(notes/assumptions/4.md). -/
def Scratch.reset : Scratch where
  above := Vector.replicate 65 0
  left := Vector.replicate 64 0
  sq := Vector.replicate 64 (Vector.replicate 64 0)
  ib := Vector.replicate 64 (Vector.replicate 64 0)

/-- The open parameters of the machine that State.reset describes. DESIGN CHOICE: the blender is present
and every address exists (notes/assumptions/2.md). -/
def Config.reset : Config where
  hasII := true
  admitted := [⟨0, 0xFFFFFFFF⟩]

/-- The machine after power-up, which is the same as reset for the engine (R44, R261). -/
def State.reset : State where
  mem := []
  err := false
  cause := .none
  cfg := Config.reset
  scratch := Scratch.reset
  host := []

end Sys2Proof.Machine
end

