-- ==== Sys2Proof/Machine/Ops.lean ====
section
/-!
DEFINITION. The named operations over memory and registers: reading and writing one sample
(00_scope.md R11, 20_memory.md R63), the canonical form of memory, taking a fault and leaving it by
reset (60_exceptions.md R233, R234; 70_reset_and_hazards.md R260), reads and writes of the scratch arrays.
-/

namespace Sys2Proof.Machine

/-! Sample memory. -/

/-- What an address that memory does not list reads as. DESIGN CHOICE (notes/assumptions/1.md). -/
def fillSample : Sample := 0

/-- `MemRead(a, 1)` (R11). The list is sorted, so the search ends at the first greater address. -/
def Memory.read : Memory → Word → Sample
  | [], _ => fillSample
  | (k, v) :: rest, a =>
    if a.toNat < k then fillSample else if k = a.toNat then v else Memory.read rest a

/-- `MemWrite(a, 1, v)` (R11), keeping the canonical form. -/
def Memory.write : Memory → Word → Sample → Memory
  | [], a, v => if v = fillSample then [] else [(a.toNat, v)]
  | (k, w) :: rest, a, v =>
    if a.toNat < k then
      if v = fillSample then (k, w) :: rest else (a.toNat, v) :: (k, w) :: rest
    else if k = a.toNat then
      if v = fillSample then rest else (a.toNat, v) :: rest
    else (k, w) :: Memory.write rest a v

/-- The canonical form from address `lo` on: strictly rising 32-bit addresses, none holding what an
unlisted address reads as. -/
def Memory.wfFrom : Nat → Memory → Bool
  | _, [] => true
  | lo, (k, v) :: rest =>
    decide (lo ≤ k) && decide (k < 2 ^ 32) && decide (v ≠ fillSample) && Memory.wfFrom (k + 1) rest

/-- The canonical form of memory. -/
def Memory.wf (m : Memory) : Bool := Memory.wfFrom 0 m

/-! Faults and reset. -/

/-- Taking a fault, `raise Fault(c)` (R233): ERR and CAUSE are written and nothing else changes; control
goes nowhere, nothing is saved. -/
def raiseFault (c : Cause) (s : State) : State := { s with err := true, cause := c }

/-- Reset (R260), the only way out of a fault (R234): ERR and CAUSE are cleared, memory and the
configuration stay. The scratch arrays, unspecified after it, are left as they are
(notes/assumptions/4.md). -/
def applyReset (s : State) : State := { s with err := false, cause := .none }

/-! The scratch arrays, element by element. A write outside an array has no effect and a read outside it
gives 0; no rule of the spec makes either (R36, R37, R38). -/

/-- Element `i` of a row of samples. -/
def rowGet {n : Nat} (v : Vector Sample n) (i : Nat) : Sample :=
  if h : i < n then v[i] else 0

/-- A row of samples with element `i` replaced. -/
def rowSet {n : Nat} (v : Vector Sample n) (i : Nat) (x : Sample) : Vector Sample n :=
  if h : i < n then v.set i x h else v

/-- `P[r][c]` (R13). -/
def squareGet (p : Square) (r c : Nat) : Sample :=
  if h : r < 64 then rowGet p[r] c else 0

/-- `P[r][c] <- x`. -/
def squareSet (p : Square) (r c : Nat) (x : Sample) : Square :=
  if h : r < 64 then p.set r (rowSet p[r] c x) h else p

/-- `above[i]`, for `-1 <= i` (R13, R36). -/
def Scratch.aboveAt (sc : Scratch) (i : Int) : Sample := rowGet sc.above (i + 1).toNat

/-- `left[i]` (R13, R36). -/
def Scratch.leftAt (sc : Scratch) (i : Nat) : Sample := rowGet sc.left i

/-- `above[i] <- v`, for `-1 <= i`. -/
def Scratch.setAbove (sc : Scratch) (i : Int) (v : Sample) : Scratch :=
  { sc with above := rowSet sc.above (i + 1).toNat v }

/-- `left[i] <- v`. -/
def Scratch.setLeft (sc : Scratch) (i : Nat) (v : Sample) : Scratch :=
  { sc with left := rowSet sc.left i v }

/-- `SQ[r][c] <- v` (R37). -/
def Scratch.setSq (sc : Scratch) (r c : Nat) (v : Sample) : Scratch :=
  { sc with sq := squareSet sc.sq r c v }

/-- `IB[r][c] <- v` (R38). -/
def Scratch.setIb (sc : Scratch) (r c : Nat) (v : Sample) : Scratch :=
  { sc with ib := squareSet sc.ib r c v }

/-! Loops. -/

/-- The values of `for i in a..b`, both ends included, none when `a > b` (R13). -/
def upTo (a b : Nat) : List Nat := List.range' a (b + 1 - a)

/-- The values of `for i in a downto b`, none when `a < b` (R13). -/
def downTo (a b : Nat) : List Nat := (upTo b a).reverse

end Sys2Proof.Machine
end

