-- ==== Sys2Proof/Machine/Operands.lean ====
section
/-!
DEFINITION. Operand forms: block sizes (30_encoding.md R93), addresses (20_memory.md R62), the footprint of a
command (R64, R65) and its admission (R68).
-/

namespace Sys2Proof.Machine

/-- The sample count a size code stands for, `4 << code` (R93). -/
def samples (c : SizeCode) : Nat := 4 <<< c.code

/-- `bw` (R97). -/
def width (o : Operands) : Nat := samples o.bwl

/-- `bh` (R97). -/
def height (o : Operands) : Nat := samples o.bhl

/-- `n = max(bw, bh)`, the side of the working square (42_directional_predictors.md R170). -/
def side (o : Operands) : Nat := max (width o) (height o)

/-- `Addr(b, s, r, c) = (b + r*s + c) mod 2^32` (R62). -/
def addr (b s : Word) (r c : Int) : Word := BitVec.ofInt 32 (b.toNat + r * s.toNat + c)

/-- The address of the sample left of row `r` of the block. -/
def leftAddr (o : Operands) (r : Nat) : Word := addr o.src o.ss r (-1)

/-- The address of the sample above column `c` of the block. -/
def aboveAddr (o : Operands) (c : Nat) : Word := addr o.src o.ss (-1) c

/-- The address of the corner sample. -/
def cornerAddr (o : Operands) : Word := addr o.src o.ss (-1) (-1)

/-- The address of destination sample `r`, `c`. -/
def destAddr (o : Operands) (r c : Nat) : Word := addr o.dst o.ds r c

/-- The positions of the block in row-major order (R71). -/
def positions (o : Operands) : List (Nat × Nat) :=
  (upTo 0 (height o - 1)).flatMap fun r => (upTo 0 (width o - 1)).map fun c => (r, c)

/-- `WS` (R65), in the order of the writes (R71). -/
def writeSet (o : Operands) : List Word := (positions o).map fun p => destAddr o p.1 p.2

/-- `RS` (R64): the left column, the row above, the corner, and for `IIPRED` the destination block. -/
def readSet (ii : Bool) (o : Operands) : List Word :=
  (if o.left then (upTo 0 (height o - 1)).map (leftAddr o) else [])
    ++ (if o.up then (upTo 0 (width o - 1)).map (aboveAddr o) else [])
    ++ (if o.up && o.left then [cornerAddr o] else [])
    ++ (if ii then writeSet o else [])

/-- `MemAdmit(a)` (R68). -/
def admits (cfg : Config) (a : Word) : Bool :=
  cfg.admitted.any fun g => decide (g.lo.toNat ≤ a.toNat) && decide (a.toNat ≤ g.hi.toNat)

/-- Every address of the footprint `RS ∪ WS` exists (R68). -/
def footprintAdmitted (cfg : Config) (ii : Bool) (o : Operands) : Bool :=
  (readSet ii o ++ writeSet o).all (admits cfg)

end Sys2Proof.Machine
end

