-- ==== Sys2Proof/Machine/Context.lean ====
section
/-!
DEFINITION. The edge context builder (40_common.md R128 to R131), the block-size adapter
(42_directional_predictors.md R171) and the loading of the inter-predicted block (R133).
-/

namespace Sys2Proof.Machine

/-- The left column (R128): the real samples, or 129. -/
def buildLeft (o : Operands) (m : Memory) (sc : Scratch) : Scratch :=
  (upTo 0 (height o - 1)).foldl
    (fun sc r => sc.setLeft r (if o.left then m.read (leftAddr o r) else 129)) sc

/-- The row above (R129): the real samples, or 127; exactly `bw` of them. -/
def buildAbove (o : Operands) (m : Memory) (sc : Scratch) : Scratch :=
  (upTo 0 (width o - 1)).foldl
    (fun sc (c : Nat) => sc.setAbove c (if o.up then m.read (aboveAddr o c) else 127)) sc

/-- The corner (R130): the real sample only if both neighbours are available, else 127. -/
def buildCorner (o : Operands) (m : Memory) (sc : Scratch) : Scratch :=
  sc.setAbove (-1) (if o.up && o.left then m.read (cornerAddr o) else 127)

/-- `BuildContext` (R131). -/
def buildContext (o : Operands) (m : Memory) (sc : Scratch) : Scratch :=
  buildCorner o m (buildAbove o m (buildLeft o m sc))

/-- `Adapt(bw, bh)` (R171): the shorter edge is extended by its last element. -/
def adapt (o : Operands) (sc : Scratch) : Scratch :=
  let bw := width o
  let bh := height o
  if bw > bh then
    (upTo bh (side o - 1)).foldl (fun sc i => sc.setLeft i (sc.leftAt (bh - 1))) sc
  else if bw < bh then
    (upTo bw (side o - 1)).foldl (fun sc (i : Nat) => sc.setAbove i (sc.aboveAt ((bw : Int) - 1))) sc
  else sc

/-- The read phase of `IIPRED` loads the destination block into `IB` (R133). -/
def loadInter (o : Operands) (m : Memory) (sc : Scratch) : Scratch :=
  (positions o).foldl (fun sc p => sc.setIb p.1 p.2 (m.read (destAddr o p.1 p.2))) sc

end Sys2Proof.Machine
end

