-- ==== Sys2Proof/Machine/Tables.lean ====
section
/-!
DEFINITION. The two constant tables: ISCALE (40_common.md R122) and W1D (43_interintra_blender.md R201). Their values
are decisions D10 and D21 of the spec (notes/assumptions/10.md).
-/

namespace Sys2Proof.Machine

/-- The 64 entries of R122, index 0 first. -/
def iscaleTable : List Nat :=
  [32768, 21845, 16384, 13107, 10923,  9362,  8192,  7282,
    6554,  5958,  5462,  5041,  4682,  4369,  4096,  3855]
  ++ [3641,  3449,  3277,  3121,  2979,  2849,  2731,  2621,
      2521,  2427,  2341,  2260,  2185,  2114,  2048,  1986]
  ++ [1928,  1872,  1821,  1771,  1725,  1680,  1639,  1598,
      1561,  1524,  1490,  1456,  1425,  1394,  1366,  1337]
  ++ [1311,  1285,  1261,  1237,  1214,  1192,  1171,  1150,
      1130,  1111,  1093,  1074,  1058,  1040,  1024,  1008]

/-- `ISCALE[i]`, for `0 <= i <= 63` (10_state.md R39). -/
def iscale (i : Nat) : Nat := iscaleTable.getD i 0

/-- The 64 entries of R201, index 0 first. -/
def w1dTable : List Nat :=
  [128, 125, 122, 119, 116, 114, 111, 109,
   107, 105, 103, 101,  99,  97,  96,  94]
  ++ [93,  91,  90,  89,  88,  86,  85,  84,
      83,  82,  81,  81,  80,  79,  78,  78]
  ++ [77,  76,  76,  75,  75,  74,  74,  73,
      73,  72,  72,  71,  71,  71,  70,  70]
  ++ [70,  70,  69,  69,  69,  69,  68,  68,
      68,  68,  68,  67,  67,  67,  67,  67]

/-- `W1D[i]`, for `0 <= i <= 63` (10_state.md R40). -/
def w1d (i : Nat) : Nat := w1dTable.getD i 0

end Sys2Proof.Machine
end

