-- ==== Sys2Proof/Machine/Arith.lean ====
section
/-!
DEFINITION. The integer primitives (40_common.md R120 to R126). All values are unbounded integers (00_scope.md R8);
samples enter by `toNat` and leave by `toSample`.
-/

namespace Sys2Proof.Machine

/-- `rp2(x, n) = (x + 2^(n-1)) >> n` (R120). -/
def rp2 (x n : Nat) : Nat := (x + 2 ^ (n - 1)) >>> n

/-- `avg2(a, b)` (R120). -/
def avg2 (a b : Nat) : Nat := rp2 (a + b) 1

/-- `clamp255` (R121). -/
def clamp255 (x : Int) : Nat := if x < 0 then 0 else if 255 < x then 255 else x.toNat

/-- `round(x / d)`, to nearest with ties upward (R126). -/
def roundDiv (x d : Nat) : Nat := (x + d / 2) / d

/-- `iscale_round(v, i)`, the multiply-round-shift (R123). -/
def iscaleRound (v i : Nat) : Nat := (v * iscale i + 32768) >>> 16

/-- A result that is a sample. By R127 every result lies in [0,255], so nothing is cut off. -/
def toSample (x : Nat) : Sample := BitVec.ofNat 8 x

end Sys2Proof.Machine
end

