-- ==== Sys2Proof/Machine/Kernel.lean ====
section
/-!
DEFINITION. What a directional kernel is: a sequence of assignments to cells of `SQ`, each of a value
computed from the context arrays and from cells (42_directional_predictors.md R170). The kernels are
written as data, in the order of the spec's loops, so that R172 and R179 can be stated of them.
-/

namespace Sys2Proof.Machine

/-- The right-hand sides that occur in rules R173 to R178. -/
inductive CellExpr where
  /-- `above[i]` -/
  | above (i : Int)
  /-- `left[i]` -/
  | left (i : Nat)
  /-- `P[r][c]` -/
  | cell (r c : Nat)
  /-- `avg2(a, b)` -/
  | avg (a b : CellExpr)
  /-- `iscale_round(wa*a + wb*b, index)` -/
  | weighted (wa : Nat) (a : CellExpr) (wb : Nat) (b : CellExpr) (index : Nat)
  deriving DecidableEq, Repr

/-- The statement `P[row][col] <- value`. -/
structure CellWrite where
  row : Nat
  col : Nat
  value : CellExpr
  deriving DecidableEq, Repr

/-- The value of a right-hand side in the current scratch arrays. -/
def CellExpr.eval (sc : Scratch) : CellExpr → Nat
  | .above i => (sc.aboveAt i).toNat
  | .left i => (sc.leftAt i).toNat
  | .cell r c => (squareGet sc.sq r c).toNat
  | .avg a b => avg2 (a.eval sc) (b.eval sc)
  | .weighted wa a wb b index => iscaleRound (wa * a.eval sc + wb * b.eval sc) index

/-- One assignment. -/
def runWrite (sc : Scratch) (w : CellWrite) : Scratch :=
  sc.setSq w.row w.col (toSample (w.value.eval sc))

/-- A kernel: its assignments, in order. -/
def runKernel (k : List CellWrite) (sc : Scratch) : Scratch := k.foldl runWrite sc

end Sys2Proof.Machine
end

