-- ==== Sys2Proof/Machine/Directional.lean ====
section
/-!
DEFINITION. The six directional kernels (42_directional_predictors.md R173 to R178) on a square of side `n`. The
recurrences are decisions D13 to D18 of the spec (notes/assumptions/10.md).
-/

namespace Sys2Proof.Machine

/-- `KernelD45(n)` (R173). -/
def kernelD45 (n : Nat) : List CellWrite :=
  (upTo 0 (n - 2)).flatMap (fun d => (upTo 0 d).map fun c =>
    ⟨d - c, c, .weighted (c + 1) (.above (d + 1)) (d - c + 1) (.left (d + 1)) d⟩)
  ++ (upTo 0 (n - 1)).map (fun c =>
    ⟨n - 1 - c, c, .weighted (c + 1) (.above ((n : Int) - 1)) (n - 1 - c + 1) (.left (n - 1)) (n - 1)⟩)
  ++ (upTo 1 (n - 1)).flatMap (fun r => (upTo (n - r) (n - 1)).map fun c =>
    ⟨r, c, .avg (.cell (r - 1) c) (.cell r (c - 1))⟩)

/-- `KernelD135(n)` (R174). -/
def kernelD135 (n : Nat) : List CellWrite :=
  (upTo 0 (n - 1)).map (fun c => ⟨0, c, .above ((c : Int) - 1)⟩)
  ++ (upTo 1 (n - 1)).map (fun r => ⟨r, 0, .left (r - 1)⟩)
  ++ (upTo 1 (n - 1)).flatMap (fun r => (upTo 1 (n - 1)).map fun c =>
    ⟨r, c, .cell (r - 1) (c - 1)⟩)

/-- `KernelD117(n)` (R175). -/
def kernelD117 (n : Nat) : List CellWrite :=
  (upTo 0 (n - 1)).map (fun c => ⟨0, c, .avg (.above ((c : Int) - 1)) (.above c)⟩)
  ++ (upTo 0 (n - 1)).map (fun c => ⟨1, c, .above ((c : Int) - 1)⟩)
  ++ (upTo 2 (n - 1)).flatMap (fun r =>
    ⟨r, 0, .left (r - 2)⟩ :: (upTo 1 (n - 1)).map fun c => ⟨r, c, .cell (r - 2) (c - 1)⟩)

/-- `KernelD153(n)` (R176). -/
def kernelD153 (n : Nat) : List CellWrite :=
  [⟨0, 0, .avg (.above (-1)) (.left 0)⟩]
  ++ (upTo 1 (n - 1)).map (fun r => ⟨r, 0, .avg (.left (r - 1)) (.left r)⟩)
  ++ [⟨0, 1, .above (-1)⟩]
  ++ (upTo 1 (n - 1)).map (fun r => ⟨r, 1, .left (r - 1)⟩)
  ++ (upTo 2 (n - 1)).map (fun c => ⟨0, c, .above ((c : Int) - 2)⟩)
  ++ (upTo 1 (n - 1)).flatMap (fun r => (upTo 2 (n - 1)).map fun c =>
    ⟨r, c, .cell (r - 1) (c - 2)⟩)

/-- The edge sample `a(r, c)` of D27 (R177): the left column at whole or half position. -/
def edgeD27 (r c : Nat) : CellExpr :=
  if c % 2 = 1 then .left (r + 1) else .avg (.left r) (.left (r + 1))

/-- `KernelD27(n)` (R177). -/
def kernelD27 (n : Nat) : List CellWrite :=
  (upTo 0 (n - 3)).map (fun c =>
    ⟨0, c, .weighted 2 (edgeD27 0 c) (c + 1) (.above (c + 2)) (c + 1)⟩)
  ++ (upTo 1 (n / 2 - 2)).flatMap (fun r => (upTo 0 (n - 3 - 2 * r)).map fun c =>
    ⟨r, c, .weighted 2 (edgeD27 r c) (c + 1) (.cell (r - 1) (c + 2)) (c + 1)⟩)
  ++ (upTo (n / 2 - 1) (n - 2)).flatMap (fun r => (upTo 0 (n - 1)).map fun c =>
    ⟨r - c / 2, c, edgeD27 r c⟩)
  ++ [⟨n - 1, 0, .avg (.cell (n - 2) 0) (.left (n - 1))⟩]
  ++ (downTo (n - 2) (n / 2)).map (fun r =>
    let w := 2 * (n - 1 - r)
    ⟨r, w, .avg (.cell (r - 1) w) (.cell r (w - 1))⟩)
  ++ (upTo 1 (n - 1)).flatMap (fun c => (downTo (n - 1) (n / 2 + c / 2)).map fun r =>
    let w := c + 2 * (n - 1 - r)
    ⟨r, w, .avg (.cell (r - 1) w) (.cell r (w - 1))⟩)

/-- The edge sample `a(r, c)` of D63 (R178): the above row at whole or half position. -/
def edgeD63 (r c : Nat) : CellExpr :=
  if r % 2 = 1 then .above (c + 1) else .avg (.above c) (.above (c + 1))

/-- `KernelD63(n)` (R178). -/
def kernelD63 (n : Nat) : List CellWrite :=
  (upTo 0 (n - 3)).map (fun r =>
    ⟨r, 0, .weighted 2 (edgeD63 r 0) (r + 1) (.left (r + 2)) (r + 1)⟩)
  ++ (upTo 1 (n / 2 - 2)).flatMap (fun c => (upTo 0 (n - 3 - 2 * c)).map fun r =>
    ⟨r, c, .weighted 2 (edgeD63 r c) (r + 1) (.cell (r + 2) (c - 1)) (r + 1)⟩)
  ++ (upTo (n / 2 - 1) (n - 2)).flatMap (fun c => (upTo 0 (n - 1)).map fun r =>
    ⟨r, c - r / 2, edgeD63 r c⟩)
  ++ [⟨0, n - 1, .avg (.cell 0 (n - 2)) (.above ((n : Int) - 1))⟩]
  ++ (downTo (n - 2) (n / 2)).map (fun c =>
    let h := 2 * (n - 1 - c)
    ⟨h, c, .avg (.cell h (c - 1)) (.cell (h - 1) c)⟩)
  ++ (upTo 1 (n - 1)).flatMap (fun r => (downTo (n - 1) (n / 2 + r / 2)).map fun c =>
    let h := r + 2 * (n - 1 - c)
    ⟨h, c, .avg (.cell h (c - 1)) (.cell (h - 1) c)⟩)

end Sys2Proof.Machine
end

