-- ==== Sys2Proof/Machine/Predict.lean ====
section
/-!
DEFINITION. The predictors (41_simple_predictors.md R151 to R154) and the dispatcher that selects one from the mode
(40_common.md R134). A predictor answers the scratch arrays it leaves and the value `OUT` (R133).
-/

namespace Sys2Proof.Machine

/-- The value `OUT[r][c]` of a command, for row `r` and column `c` of the block (R133). -/
abbrev Block := Nat → Nat → Sample

/-- The sum of the first `bw` above samples (R151). -/
def sumAbove (o : Operands) (sc : Scratch) : Nat :=
  ((upTo 0 (width o - 1)).map fun c : Nat => (sc.aboveAt c).toNat).sum

/-- The sum of the first `bh` left samples (R151). -/
def sumLeft (o : Operands) (sc : Scratch) : Nat :=
  ((upTo 0 (height o - 1)).map fun r => (sc.leftAt r).toNat).sum

/-- The DC value (R151): the rounded mean of the available edges, 128 when there is none. -/
def dcValue (o : Operands) (sc : Scratch) : Nat :=
  if !o.up && !o.left then 128
  else
    let sum := (if o.up then sumAbove o sc else 0) + (if o.left then sumLeft o sc else 0)
    let count := (if o.up then width o else 0) + (if o.left then height o else 0)
    (sum + count >>> 1) / count

/-- `PredDC` (R151). -/
def predictDc (o : Operands) (sc : Scratch) : Scratch × Block :=
  let dc := toSample (dcValue o sc)
  (sc, fun _ _ => dc)

/-- `PredV` (R152). -/
def predictV (_ : Operands) (sc : Scratch) : Scratch × Block := (sc, fun _ c => sc.aboveAt c)

/-- `PredH` (R153). -/
def predictH (_ : Operands) (sc : Scratch) : Scratch × Block := (sc, fun r _ => sc.leftAt r)

/-- `PredTM` (R154). -/
def predictTm (_ : Operands) (sc : Scratch) : Scratch × Block :=
  (sc, fun r c => toSample (clamp255
    ((sc.leftAt r).toNat + (sc.aboveAt c).toNat - (sc.aboveAt (-1)).toNat)))

/-- A directional mode (R134): the adapter, the kernel on side `n`, the top-left part of `SQ`. -/
def predictSquare (kernel : Nat → List CellWrite) (o : Operands) (sc : Scratch) : Scratch × Block :=
  let done := runKernel (kernel (side o)) (adapt o sc)
  (done, squareGet done.sq)

/-- `Predict` (R134). There is no default arm. -/
def predict (m : Mode) (o : Operands) (sc : Scratch) : Scratch × Block :=
  match m with
  | .dc => predictDc o sc
  | .v => predictV o sc
  | .h => predictH o sc
  | .tm => predictTm o sc
  | .d45 => predictSquare kernelD45 o sc
  | .d135 => predictSquare kernelD135 o sc
  | .d117 => predictSquare kernelD117 o sc
  | .d153 => predictSquare kernelD153 o sc
  | .d27 => predictSquare kernelD27 o sc
  | .d63 => predictSquare kernelD63 o sc

end Sys2Proof.Machine
end

