-- ==== Sys2Proof/Machine/Blender.lean ====
section
/-!
DEFINITION. The interintra blender (43_interintra_blender.md R202 to R204).
-/

namespace Sys2Proof.Machine

/-- `sf = 64 div max(bw, bh)` (R202). -/
def sizeFactor (o : Operands) : Nat := 64 / side o

/-- `WR(r)` and `WC(c)`: the weight of a row or column number (R202). -/
def axisWeight (o : Operands) (p : Nat) : Nat := w1d (p * sizeFactor o)

/-- `Weight(mode, bw, bh, r, c)` (R204). -/
def weight (m : Mode) (o : Operands) (r c : Nat) : Nat :=
  match m with
  | .v => axisWeight o r
  | .d63 | .d117 => (3 * axisWeight o r + axisWeight o c) >>> 2
  | .h => axisWeight o c
  | .d27 | .d153 => (3 * axisWeight o c + axisWeight o r) >>> 2
  | .d135 => w1d (min r c * sizeFactor o)
  | .d45 => (axisWeight o r + axisWeight o c) >>> 1
  | .dc | .tm => 128

/-- `BlendW(w, p, q)` (R203): `p` the inter sample, `q` the intra sample. -/
def blendW (w p q : Nat) : Nat := ((256 - w) * p + w * q + 127) >>> 8

/-- Every sample of `OUT` blended with the inter sample in `IB` (R133, R203). -/
def blendBlock (m : Mode) (o : Operands) (sc : Scratch) (out : Block) : Block := fun r c =>
  toSample (blendW (weight m o r c) (squareGet sc.ib r c).toNat (out r c).toNat)

end Sys2Proof.Machine
end

