-- ==== Sys2Proof/Machine/Flags.lean ====
section
/-!
DEFINITION. The flags and the two words of the status port. `ERR` and `CAUSE` are the hardware's only flags
(10_state.md R33); they change in `raiseFault` and `applyReset` only.
-/

namespace Sys2Proof.Machine

/-- The code of a cause (60_exceptions.md R231). -/
def causeCode : Cause → BitVec 3
  | .none => 0
  | .reservedBits => 1
  | .illegalMode => 2
  | .illegalSize => 3
  | .unsupported => 4
  | .access => 5

/-- `STATUS` (R34): bit 0 ERR, bits 3:1 CAUSE, bits 31:4 zero. -/
def statusWord (s : State) : Word := 0#28 ++ causeCode s.cause ++ BitVec.ofBool s.err

/-- `CAP` (R35): bit 0 HAS_II, bits 31:1 zero. -/
def capWord (s : State) : Word := 0#31 ++ BitVec.ofBool s.cfg.hasII

end Sys2Proof.Machine
end

