-- ==== Sys2Proof/Machine/Execute.lean ====
section
/-!
DEFINITION. The skeleton every command executes (40_common.md R133): the halted engine, the checks of
30_encoding.md R98 that need the machine's configuration, the read, compute and write phases; and the host's
own actions (70_reset_and_hazards.md R270).
-/

namespace Sys2Proof.Machine

/-- `WriteBack` (R135), in row-major order (20_memory.md R71). -/
def writeBack (o : Operands) (out : Block) (m : Memory) : Memory :=
  (positions o).foldl (fun m p => m.write (destAddr o p.1 p.2) (out p.1 p.2)) m

/-- The scratch arrays after the read phase (R133). -/
def readPhase (ii : Bool) (o : Operands) (s : State) : Scratch :=
  let ctx := buildContext o s.mem s.scratch
  if ii then loadInter o s.mem ctx else ctx

/-- The scratch arrays after the compute phase, and `OUT` (R133). -/
def computePhase (ii : Bool) (m : Mode) (o : Operands) (sc : Scratch) : Scratch × Block :=
  let (done, out) := predict m o sc
  (done, if ii then blendBlock m o done out else out)

/-- The three phases of a command that passed every check (R133): all reads precede all writes (R71). -/
def perform (ii : Bool) (m : Mode) (o : Operands) (s : State) : State :=
  let (done, out) := computePhase ii m o (readPhase ii o s)
  { s with mem := writeBack o out s.mem, scratch := done }

/-- The cause of the first failing check of R98 among those that follow the mode check, if any fails. A
decoded instruction always has a legal shape; the check is repeated for instructions that no descriptor
encodes (notes/assumptions/7.md). -/
def checkCommand (cfg : Config) (ii : Bool) (o : Operands) : Option Cause :=
  if !legalShape o.bwl o.bhl then some .illegalSize
  else if ii && !cfg.hasII then some .unsupported
  else if !footprintAdmitted cfg ii o then some .access
  else none

/-- `Step` from the decoded descriptor on (R133). A halted engine does nothing (60_exceptions.md R235). -/
def runCommand (ii : Bool) (m : Mode) (o : Operands) (s : State) :
    Host.Outcome State Fault Refusal :=
  if s.err then .next s
  else
    match checkCommand s.cfg ii o with
    | some c => .next (raiseFault c s)
    | none => .next (perform ii m o s)

/-- The engine's answer to a descriptor that does not decode (R233, R235). -/
def rejectCommand (c : Cause) (s : State) : Host.Outcome State Fault Refusal :=
  if s.err then .next s else .next (raiseFault c s)

/-- A host access to one sample: it needs the address to exist (notes/assumptions/6.md). -/
def hostAccess (a : Word) (s : State) (after : State) : Host.Outcome State Fault Refusal :=
  if admits s.cfg a then .next after else .fault (.absentHostAddress a)

/-- The host writes one sample (R270). -/
def hostWrite (a : Word) (v : Sample) (s : State) : Host.Outcome State Fault Refusal :=
  hostAccess a s { s with mem := s.mem.write a v }

/-- The host reads one sample (R270): no effect; the value it sees is `s.mem.read a`. -/
def hostRead (a : Word) (s : State) : Host.Outcome State Fault Refusal := hostAccess a s s

/-- The host reads STATUS (R270): no effect; it sees `statusWord s`. -/
def hostReadStatus (s : State) : Host.Outcome State Fault Refusal := .next s

/-- The host reads CAP (R270): no effect; it sees `capWord s`. -/
def hostReadCap (s : State) : Host.Outcome State Fault Refusal := .next s

/-- The host applies reset (R260, R270). -/
def hostReset (s : State) : Host.Outcome State Fault Refusal := .next (applyReset s)

/-- The host has no action left: the engine is idle and never starts work on its own (R18, R244). -/
def idle (s : State) : Host.Outcome State Fault Refusal := .next s

end Sys2Proof.Machine
end

