-- ==== Sys2Proof/Machine/Interintra.lean ====
section
/-!
DEFINITION. The meanings of the ten IIPRED commands (43_interintra_blender.md R200 to R216).
-/

namespace Sys2Proof.Machine

/-- `IIPRED.DC` (43_interintra_blender.md R205). -/
def execIipredDc (o : Operands) (s : State) : Host.Outcome State Fault Refusal :=
  runCommand true .dc o s

/-- `IIPRED.V` (43_interintra_blender.md R206). -/
def execIipredV (o : Operands) (s : State) : Host.Outcome State Fault Refusal :=
  runCommand true .v o s

/-- `IIPRED.H` (43_interintra_blender.md R207). -/
def execIipredH (o : Operands) (s : State) : Host.Outcome State Fault Refusal :=
  runCommand true .h o s

/-- `IIPRED.TM` (43_interintra_blender.md R208). -/
def execIipredTm (o : Operands) (s : State) : Host.Outcome State Fault Refusal :=
  runCommand true .tm o s

/-- `IIPRED.D45` (43_interintra_blender.md R209). -/
def execIipredD45 (o : Operands) (s : State) : Host.Outcome State Fault Refusal :=
  runCommand true .d45 o s

/-- `IIPRED.D135` (43_interintra_blender.md R210). -/
def execIipredD135 (o : Operands) (s : State) : Host.Outcome State Fault Refusal :=
  runCommand true .d135 o s

/-- `IIPRED.D117` (43_interintra_blender.md R211). -/
def execIipredD117 (o : Operands) (s : State) : Host.Outcome State Fault Refusal :=
  runCommand true .d117 o s

/-- `IIPRED.D153` (43_interintra_blender.md R212). -/
def execIipredD153 (o : Operands) (s : State) : Host.Outcome State Fault Refusal :=
  runCommand true .d153 o s

/-- `IIPRED.D27` (43_interintra_blender.md R213). -/
def execIipredD27 (o : Operands) (s : State) : Host.Outcome State Fault Refusal :=
  runCommand true .d27 o s

/-- `IIPRED.D63` (43_interintra_blender.md R214). -/
def execIipredD63 (o : Operands) (s : State) : Host.Outcome State Fault Refusal :=
  runCommand true .d63 o s

end Sys2Proof.Machine
end

