-- ==== Sys2Proof/Machine/PredDirectional.lean ====
section
/-!
DEFINITION. The meanings of the six directional PRED commands (42_directional_predictors.md R170 to R181).
-/

namespace Sys2Proof.Machine

/-- `PRED.D45` (42_directional_predictors.md R173). -/
def execPredD45 (o : Operands) (s : State) : Host.Outcome State Fault Refusal :=
  runCommand false .d45 o s

/-- `PRED.D135` (42_directional_predictors.md R174). -/
def execPredD135 (o : Operands) (s : State) : Host.Outcome State Fault Refusal :=
  runCommand false .d135 o s

/-- `PRED.D117` (42_directional_predictors.md R175). -/
def execPredD117 (o : Operands) (s : State) : Host.Outcome State Fault Refusal :=
  runCommand false .d117 o s

/-- `PRED.D153` (42_directional_predictors.md R176). -/
def execPredD153 (o : Operands) (s : State) : Host.Outcome State Fault Refusal :=
  runCommand false .d153 o s

/-- `PRED.D27` (42_directional_predictors.md R177). -/
def execPredD27 (o : Operands) (s : State) : Host.Outcome State Fault Refusal :=
  runCommand false .d27 o s

/-- `PRED.D63` (42_directional_predictors.md R178). -/
def execPredD63 (o : Operands) (s : State) : Host.Outcome State Fault Refusal :=
  runCommand false .d63 o s

end Sys2Proof.Machine
end

