-- ==== Sys2Proof/Machine/PredSimple.lean ====
section
/-!
DEFINITION. The meanings of PRED.DC, PRED.V, PRED.H and PRED.TM (41_simple_predictors.md R150 to R154).
-/

namespace Sys2Proof.Machine

/-- `PRED.DC` (41_simple_predictors.md R151). -/
def execPredDc (o : Operands) (s : State) : Host.Outcome State Fault Refusal :=
  runCommand false .dc o s

/-- `PRED.V` (41_simple_predictors.md R152). -/
def execPredV (o : Operands) (s : State) : Host.Outcome State Fault Refusal :=
  runCommand false .v o s

/-- `PRED.H` (41_simple_predictors.md R153). -/
def execPredH (o : Operands) (s : State) : Host.Outcome State Fault Refusal :=
  runCommand false .h o s

/-- `PRED.TM` (41_simple_predictors.md R154). -/
def execPredTm (o : Operands) (s : State) : Host.Outcome State Fault Refusal :=
  runCommand false .tm o s

end Sys2Proof.Machine
end

