-- ==== Sys2Proof/Machine/Dispatch.lean ====
section
/-!
DEFINITION. One arm per constructor of Instr, each a direct call of its meaning.
-/

namespace Sys2Proof.Machine

def exec (i : Instr) (s : State) : Host.Outcome State Fault Refusal :=
  match i with
  | .predDc o => Sys2Proof.Machine.execPredDc o s
  | .predV o => Sys2Proof.Machine.execPredV o s
  | .predH o => Sys2Proof.Machine.execPredH o s
  | .predTm o => Sys2Proof.Machine.execPredTm o s
  | .predD45 o => Sys2Proof.Machine.execPredD45 o s
  | .predD135 o => Sys2Proof.Machine.execPredD135 o s
  | .predD117 o => Sys2Proof.Machine.execPredD117 o s
  | .predD153 o => Sys2Proof.Machine.execPredD153 o s
  | .predD27 o => Sys2Proof.Machine.execPredD27 o s
  | .predD63 o => Sys2Proof.Machine.execPredD63 o s
  | .iipredDc o => Sys2Proof.Machine.execIipredDc o s
  | .iipredV o => Sys2Proof.Machine.execIipredV o s
  | .iipredH o => Sys2Proof.Machine.execIipredH o s
  | .iipredTm o => Sys2Proof.Machine.execIipredTm o s
  | .iipredD45 o => Sys2Proof.Machine.execIipredD45 o s
  | .iipredD135 o => Sys2Proof.Machine.execIipredD135 o s
  | .iipredD117 o => Sys2Proof.Machine.execIipredD117 o s
  | .iipredD153 o => Sys2Proof.Machine.execIipredD153 o s
  | .iipredD27 o => Sys2Proof.Machine.execIipredD27 o s
  | .iipredD63 o => Sys2Proof.Machine.execIipredD63 o s

end Sys2Proof.Machine
end

