-- ==== Sys2Proof/Machine/Step.lean ====
section
/-!
DEFINITION. One step: the host's next action (70_reset_and_hazards.md R270). A presented command is decoded and
executed whole (00_scope.md R19).
-/

namespace Sys2Proof.Machine

/-- One command on the command port (40_common.md R133). -/
def presentCommand (d : Descriptor) (s : State) : Host.Outcome State Fault Refusal :=
  match decode d with
  | .error c => rejectCommand c s
  | .ok i => exec i s

/-- One action of the host (R270). -/
def hostAction (a : HostAction) (s : State) : Host.Outcome State Fault Refusal :=
  match a with
  | .issue d => presentCommand d s
  | .writeSample a v => hostWrite a v s
  | .readSample a => hostRead a s
  | .readStatus => hostReadStatus s
  | .readCap => hostReadCap s
  | .reset => hostReset s

/-- One step: the next action is taken off the host's list and performed. -/
def step (s : State) : Host.Outcome State Fault Refusal :=
  match s.host with
  | [] => idle s
  | a :: rest => hostAction a { s with host := rest }

/-- `s` with the command whose low `nbits` bits are those of `w` put where `step` takes its next action:
at the head of the host's list (notes/assumptions/3.md). -/
def State.withFetchWord (s : State) (nbits w : Nat) : State :=
  { s with host := .issue (descriptorOfNat (w % 2 ^ nbits)) :: s.host }

end Sys2Proof.Machine
end

