-- ==== Sys2Proof/Safety.lean ====
section
/-!
DEFINITION. The terms claims are stated in: what a good state is, when a command completes, what the
neighbour context of a command is, and what it means that a block was written.
-/

namespace Sys2Proof.Machine

/-- The invariant of the machine: memory is canonical and lists existing addresses only (20_memory.md R68),
and CAUSE tells a fault exactly when ERR is set (10_state.md R33, R34). -/
def State.Inv (s : State) : Prop :=
  s.mem.wf = true
    ∧ (∀ cell ∈ s.mem, admits s.cfg (BitVec.ofNat 32 cell.1) = true)
    ∧ (s.err = false ↔ s.cause = .none)

/-- No fault has occurred since reset (R33). -/
def State.Safe (s : State) : Prop := s.err = false

/-- A run ends when the host has no action left or a command has faulted (70_reset_and_hazards.md R269). -/
def State.runOver (s : State) : Bool := s.host.isEmpty || s.err

/-- The conditions, on the state and the operands alone, under which a command passes every check of
30_encoding.md R98 on an engine that is not halted: a legal shape, the blender for `IIPRED`, an existing
footprint. -/
def Ready (i : Instr) (s : State) : Prop :=
  s.err = false
    ∧ i.wellFormed = true
    ∧ (i.ii = true → s.cfg.hasII = true)
    ∧ ∀ a ∈ readSet i.ii i.operands ++ writeSet i.operands, admits s.cfg a = true

/-- `CMD[13]` and `CMD[3:0]`, which select the operation (30_encoding.md R103), are `blend` and `mode` in the
encoding of `i`. -/
def SelectedBy (i : Instr) (blend mode : Nat) : Prop :=
  (encode i).cmd.toNat / 2 ^ 13 % 2 = blend ∧ (encode i).cmd.toNat % 2 ^ 4 = mode

/-- `left[r]` of a command as a function of memory: 40_common.md R128, extended past the block as
42_directional_predictors.md R171 says. -/
def contextLeft (o : Operands) (m : Memory) (r : Nat) : Nat :=
  if o.left then (m.read (addr o.src o.ss (min r (height o - 1)) (-1))).toNat else 129

/-- `above[i]`, `-1 <= i`, of a command as a function of memory: the corner (R130), the row above (R129),
extended past the block as R171 says. -/
def contextAbove (o : Operands) (m : Memory) (i : Int) : Nat :=
  if i = -1 then
    if o.up = true ∧ o.left = true then (m.read (addr o.src o.ss (-1) (-1))).toNat else 127
  else if o.up then (m.read (addr o.src o.ss (-1) (min i (width o - 1)))).toNat else 127

/-- Position `r`, `c` is the last one, in row-major order, among the block positions that share its
destination address (20_memory.md R71). -/
def LastWriter (o : Operands) (r c : Nat) : Prop :=
  ∀ r' c', r' < height o → c' < width o →
    addr o.dst o.ds r' c' = addr o.dst o.ds r c → r' < r ∨ (r' = r ∧ c' ≤ c)

/-- The command with operands `o` led from `s` to `t` by writing the block `P`: every destination address
holds the sample of the last position written to it (R65, R71), every other address reads as before, and
ERR, CAUSE, the configuration and the host's list are as before. The scratch arrays are not
observable (10_state.md R43). -/
structure WritesBlock (o : Operands) (P : Nat → Nat → Nat) (s t : State) : Prop where
  stored : ∀ r c, r < height o → c < width o → LastWriter o r c →
    (t.mem.read (addr o.dst o.ds r c)).toNat = P r c
  kept : ∀ a, (∀ r c : Nat, r < height o → c < width o → addr o.dst o.ds r c ≠ a) →
    t.mem.read a = s.mem.read a
  err : t.err = s.err
  cause : t.cause = s.cause
  cfg : t.cfg = s.cfg
  host : t.host = s.host

/-- `dc` of R151 from the context: the mean of the available edges, rounded half up, 128 when there is
none. -/
def dcOf (o : Operands) (A : Int → Nat) (L : Nat → Nat) : Nat :=
  if o.up = false ∧ o.left = false then 128
  else
    let sum := (if o.up then ∑ c ∈ Finset.range (width o), A c else 0)
      + (if o.left then ∑ r ∈ Finset.range (height o), L r else 0)
    let count := (if o.up then width o else 0) + (if o.left then height o else 0)
    (sum + count / 2) / count

/-- `clamp255(left[r] + above[c] - above[-1])` of R154. -/
def tmOf (A : Int → Nat) (L : Nat → Nat) (r c : Nat) : Nat :=
  (max 0 (min 255 ((L r : Int) + A c - A (-1)))).toNat

/-- The inter sample of an `IIPRED` command (43_interintra_blender.md R200). -/
def interSample (o : Operands) (m : Memory) (r c : Nat) : Nat :=
  (m.read (addr o.dst o.ds r c)).toNat

/-- `WR` and `WC` (R202): the decay table at position `p`, scaled so that it spans the larger side. -/
def decay (o : Operands) (p : Nat) : Nat := w1d (p * (64 / max (width o) (height o)))

/-- `BlendW(w, p, q)` (R203), `p` the inter sample, `q` the intra sample. -/
def mixed (w p q : Nat) : Nat := ((256 - w) * p + w * q + 127) / 256

/-! The predictions of the six directional modes on a square of side `n`, as equations between the samples
`P r c`, the row above `A` (from index -1) and the left column `L`. They are written from
42_directional_predictors.md a second time, not from the kernels of Directional.lean: where the rule gives
a closed form, that; else the recurrence, which determines every sample. -/

/-- `avg2` (40_common.md R120). -/
def mean2 (a b : Nat) : Nat := (a + b + 1) / 2

/-- `iscale_round` (R123). -/
def scaled (v i : Nat) : Nat := (v * iscale i + 32768) / 65536

/-- R173: the anti-diagonals `r + c = d`, the main one, and the bottom-right triangle. -/
structure IsD45 (n : Nat) (A : Int → Nat) (L : Nat → Nat) (P : Nat → Nat → Nat) : Prop where
  upper : ∀ r c : Nat, r + c ≤ n - 2 →
    P r c = scaled (A (r + c + 1) * (c + 1) + L (r + c + 1) * (r + 1)) (r + c)
  main : ∀ r c : Nat, r + c = n - 1 →
    P r c = scaled (A (n - 1) * (c + 1) + L (n - 1) * (r + 1)) (n - 1)
  lower : ∀ r c, r < n → c < n → n ≤ r + c → P r c = mean2 (P (r - 1) c) (P r (c - 1))

/-- R174, the closed form. -/
structure IsD135 (n : Nat) (A : Int → Nat) (L : Nat → Nat) (P : Nat → Nat → Nat) : Prop where
  upper : ∀ r c : Nat, r ≤ c → c < n → P r c = A (c - r - 1)
  lower : ∀ r c, c < r → r < n → P r c = L (r - c - 1)

/-- R175, the closed form, with `k = r div 2`. -/
structure IsD117 (n : Nat) (A : Int → Nat) (L : Nat → Nat) (P : Nat → Nat → Nat) : Prop where
  even : ∀ r c k : Nat, r = 2 * k → r < n → c < n → k ≤ c → P r c = mean2 (A (c - k - 1)) (A (c - k))
  odd : ∀ r c k : Nat, r = 2 * k + 1 → r < n → c < n → k ≤ c → P r c = A (c - k - 1)
  lower : ∀ r c, r < n → c < n → c < r / 2 → P r c = L (r - 2 * c - 2)

/-- R176, the closed form, with `k = c div 2` and `q = r - k`. -/
structure IsD153 (n : Nat) (A : Int → Nat) (L : Nat → Nat) (P : Nat → Nat → Nat) : Prop where
  evenTop : ∀ c k, c = 2 * k → k < n → c < n → P k c = mean2 (A (-1)) (L 0)
  even : ∀ c k q, c = 2 * k → 0 < q → q + k < n → c < n → P (q + k) c = mean2 (L (q - 1)) (L q)
  oddTop : ∀ c k, c = 2 * k + 1 → k < n → c < n → P k c = A (-1)
  odd : ∀ c k q, c = 2 * k + 1 → 0 < q → q + k < n → c < n → P (q + k) c = L (q - 1)
  upper : ∀ r c : Nat, r < n → c < n → r < c / 2 → P r c = A (c - 2 * r - 2)

/-- The edge sample `a(r, c)` of R177. -/
def edgeLeft (L : Nat → Nat) (r c : Nat) : Nat :=
  if c % 2 = 1 then L (r + 1) else mean2 (L r) (L (r + 1))

/-- R177, with `k = r + c div 2`: the weighted rows (`k <= n/2 - 2`), the projection of the left column
(`n/2 - 1 <= k <= n - 2`) and the averaged corner (`k >= n - 1`). -/
structure IsD27 (n : Nat) (A : Int → Nat) (L : Nat → Nat) (P : Nat → Nat → Nat) : Prop where
  firstRow : ∀ c : Nat, c / 2 + 2 ≤ n / 2 →
    P 0 c = scaled (2 * edgeLeft L 0 c + (c + 1) * A (c + 2)) (c + 1)
  rows : ∀ r c, 0 < r → r + c / 2 + 2 ≤ n / 2 →
    P r c = scaled (2 * edgeLeft L r c + (c + 1) * P (r - 1) (c + 2)) (c + 1)
  project : ∀ r c, c < n → n / 2 ≤ r + c / 2 + 1 → r + c / 2 + 2 ≤ n →
    P r c = edgeLeft L (r + c / 2) c
  cornerFirst : P (n - 1) 0 = mean2 (P (n - 2) 0) (L (n - 1))
  corner : ∀ r c, r < n → c < n → 0 < c → n ≤ r + c / 2 + 1 →
    P r c = mean2 (P (r - 1) c) (P r (c - 1))

/-- The edge sample `a(r, c)` of R178. -/
def edgeAbove (A : Int → Nat) (r c : Nat) : Nat :=
  if r % 2 = 1 then A (c + 1) else mean2 (A c) (A (c + 1))

/-- R178, with `k = c + r div 2`: the weighted columns (`k <= n/2 - 2`), the projection of the above row
(`n/2 - 1 <= k <= n - 2`) and the averaged corner (`k >= n - 1`). -/
structure IsD63 (n : Nat) (A : Int → Nat) (L : Nat → Nat) (P : Nat → Nat → Nat) : Prop where
  firstColumn : ∀ r, r / 2 + 2 ≤ n / 2 →
    P r 0 = scaled (2 * edgeAbove A r 0 + (r + 1) * L (r + 2)) (r + 1)
  columns : ∀ r c, 0 < c → c + r / 2 + 2 ≤ n / 2 →
    P r c = scaled (2 * edgeAbove A r c + (r + 1) * P (r + 2) (c - 1)) (r + 1)
  project : ∀ r c, r < n → n / 2 ≤ c + r / 2 + 1 → c + r / 2 + 2 ≤ n →
    P r c = edgeAbove A r (c + r / 2)
  cornerFirst : P 0 (n - 1) = mean2 (P 0 (n - 2)) (A (n - 1))
  corner : ∀ r c, r < n → c < n → 0 < r → n ≤ c + r / 2 + 1 →
    P r c = mean2 (P r (c - 1)) (P (r - 1) c)

/-- What mode `m` predicts for a square of side `n` (directional modes; the others put no condition on `P`). -/
def IsDirectional (m : Mode) (n : Nat) (A : Int → Nat) (L : Nat → Nat) (P : Nat → Nat → Nat) : Prop :=
  match m with
  | .dc | .v | .h | .tm => True
  | .d45 => IsD45 n A L P
  | .d135 => IsD135 n A L P
  | .d117 => IsD117 n A L P
  | .d153 => IsD153 n A L P
  | .d27 => IsD27 n A L P
  | .d63 => IsD63 n A L P

/-- The cells a right-hand side reads. -/
def CellExpr.cells : CellExpr → List (Nat × Nat)
  | .above _ | .left _ => []
  | .cell r c => [(r, c)]
  | .avg a b | .weighted _ a _ b _ => a.cells ++ b.cells

/-- The indices of `above` a right-hand side reads. -/
def CellExpr.aboves : CellExpr → List Int
  | .above i => [i]
  | .left _ | .cell _ _ => []
  | .avg a b | .weighted _ a _ b _ => a.aboves ++ b.aboves

/-- The indices of `left` a right-hand side reads. -/
def CellExpr.lefts : CellExpr → List Nat
  | .left i => [i]
  | .above _ | .cell _ _ => []
  | .avg a b | .weighted _ a _ b _ => a.lefts ++ b.lefts

/-- The kernel of a directional mode (R134); the other modes have none. -/
def kernelOf (m : Mode) (n : Nat) : List CellWrite :=
  match m with
  | .dc | .v | .h | .tm => []
  | .d45 => kernelD45 n
  | .d135 => kernelD135 n
  | .d117 => kernelD117 n
  | .d153 => kernelD153 n
  | .d27 => kernelD27 n
  | .d63 => kernelD63 n

/-- The six directional modes. -/
def directionalMode (m : Mode) : Bool :=
  match m with
  | .dc | .v | .h | .tm => false
  | .d45 | .d135 | .d117 | .d153 | .d27 | .d63 => true

end Sys2Proof.Machine
end

