-- ==== Sys2Proof/Certificates/Slice0/Obligations.lean ====
section
/-!
DEFINITION. The statements for the provers. Each docstring names the rule of spec/ it formalises; a clause
that rests on a choice of the model names the log entry (notes/assumptions).
-/

open Sys2Proof Sys2Proof.Machine

/-! ## Encoding -/

/-- Decoding the five words of a well-formed command gives the command back, every operand included
(30_encoding.md R90, R91). -/
def Obligations.DecodeOfEncodeIsTheCommand : Prop :=
  ∀ i : Instr, i.wellFormed = true → decode (encode i) = .ok i

/-- A descriptor that decodes is the encoding of what it decodes to, which is well formed: no bit of a legal
descriptor is dropped (R91, R96, R100). -/
def Obligations.EncodeOfDecodeIsTheDescriptor : Prop :=
  ∀ (d : Descriptor) (i : Instr), decode d = .ok i → i.wellFormed = true ∧ encode i = d

/-- R97: which bits of word 0 the operands of a decoded command are. -/
def Obligations.DecodedOperandsAreTheFields : Prop :=
  ∀ (d : Descriptor) (i : Instr), decode d = .ok i →
    i.mode.code = d.cmd.toNat % 16
      ∧ width i.operands = 4 * 2 ^ (d.cmd.toNat / 2 ^ 4 % 8)
      ∧ height i.operands = 4 * 2 ^ (d.cmd.toNat / 2 ^ 7 % 8)
      ∧ (i.operands.up = true ↔ d.cmd.toNat / 2 ^ 10 % 2 = 1)
      ∧ (i.operands.left = true ↔ d.cmd.toNat / 2 ^ 11 % 2 = 1)
      ∧ (i.operands.right = true ↔ d.cmd.toNat / 2 ^ 12 % 2 = 1)
      ∧ (i.ii = true ↔ d.cmd.toNat / 2 ^ 13 % 2 = 1)
      ∧ i.operands.src = d.src ∧ i.operands.ss = d.ss
      ∧ i.operands.dst = d.dst ∧ i.operands.ds = d.ds

/-- Words written out from R91 and listed in 95_test_vectors.md section 2.1 decode to the commands they stand
for. -/
def Obligations.ListedWordsDecode : Prop :=
  decode ⟨0x00000C14, 0x1000, 0x40, 0x1000, 0x40⟩ =
      .ok (.predD45 ⟨.s8, .s4, true, true, false, 0x1000, 0x40, 0x1000, 0x40⟩)
    ∧ decode ⟨0x00000889, 1, 2, 3, 4⟩ = .ok (.predD63 ⟨.s4, .s8, false, true, false, 1, 2, 3, 4⟩)
    ∧ decode ⟨0x00002C11, 1, 2, 3, 4⟩ = .ok (.iipredV ⟨.s8, .s4, true, true, false, 1, 2, 3, 4⟩)
    ∧ decode ⟨0x00001E43, 1, 2, 3, 4⟩ = .ok (.predTm ⟨.s64, .s64, true, true, true, 1, 2, 3, 4⟩)
    ∧ decode ⟨0x0000000A, 1, 2, 3, 4⟩ = .error .illegalMode
    ∧ decode ⟨0x00000050, 1, 2, 3, 4⟩ = .error .illegalSize
    ∧ decode ⟨0x00000100, 1, 2, 3, 4⟩ = .error .illegalSize
    ∧ decode ⟨0x8000000A, 1, 2, 3, 4⟩ = .error .reservedBits
    ∧ decode ⟨0x0000207F, 1, 2, 3, 4⟩ = .error .illegalMode

/-! ## The step -/

/-- A presented descriptor that decodes is executed: the step takes it off the host's list and is `exec` of
the decoded command (40_common.md R133, 00_scope.md R19). -/
def Obligations.StepRunsTheDecodedCommand : Prop :=
  ∀ (s : State) (d : Descriptor) (rest : List HostAction) (i : Instr),
    s.host = .issue d :: rest → decode d = .ok i → step s = exec i { s with host := rest }

/-- R98 and R232: on an engine that is not halted a presented descriptor faults with the first failing check
of the list and nothing but ERR and CAUSE changes; a descriptor that passes every check completes. -/
def Obligations.FirstFailingCheckDecidesTheFault : Prop :=
  ∀ (s : State) (d : Descriptor) (rest : List HostAction),
    s.host = .issue d :: rest → s.err = false →
    let cmd := d.cmd.toNat
    let reserved := cmd / 2 ^ 14 ≠ 0
    let mode := 10 ≤ cmd % 16
    let bwl := cmd / 2 ^ 4 % 8
    let bhl := cmd / 2 ^ 7 % 8
    let size := 4 < bwl ∨ 4 < bhl ∨ bhl + 1 < bwl ∨ bwl + 1 < bhl
    let blend := cmd / 2 ^ 13 % 2 = 1
    let fault := fun c : Cause =>
      step s = .next { s with host := rest, err := true, cause := c }
    (reserved → fault .reservedBits)
      ∧ (¬ reserved → mode → fault .illegalMode)
      ∧ (¬ reserved → ¬ mode → size → fault .illegalSize)
      ∧ (¬ reserved → ¬ mode → ¬ size → blend → s.cfg.hasII = false → fault .unsupported)
      ∧ (¬ reserved → ¬ mode → ¬ size → (blend → s.cfg.hasII = true) →
          ∃ i, decode d = .ok i
            ∧ ((∃ a ∈ readSet i.ii i.operands ++ writeSet i.operands, admits s.cfg a = false) →
                fault .access)
            ∧ ((∀ a ∈ readSet i.ii i.operands ++ writeSet i.operands, admits s.cfg a = true) →
                ∃ t, step s = .next t ∧ t.err = false ∧ t.cause = s.cause ∧ t.host = rest))

/-- R235: a halted engine consumes a presented descriptor and does nothing else. -/
def Obligations.HaltedEngineDiscardsTheCommand : Prop :=
  ∀ (s : State) (d : Descriptor) (rest : List HostAction),
    s.host = .issue d :: rest → s.err = true → step s = .next { s with host := rest }

/-- R233, R237: when a step sets ERR, a descriptor was presented, a cause is recorded and nothing else
changes. -/
def Obligations.FaultChangesOnlyErrAndCause : Prop :=
  ∀ s t : State, step s = .next t → s.err = false → t.err = true →
    (∃ d, s.host = .issue d :: t.host)
      ∧ t.cause ≠ .none
      ∧ t = { s with host := t.host, err := true, cause := t.cause }

/-- R234: no action but reset clears ERR or changes CAUSE once a fault has occurred. -/
def Obligations.OnlyResetLeavesTheFaultedState : Prop :=
  ∀ s t : State, step s = .next t → s.err = true →
    (t.err = true ∧ t.cause = s.cause)
      ∨ (∃ rest, s.host = .reset :: rest ∧ t.err = false ∧ t.cause = .none ∧ t.mem = s.mem
          ∧ t.cfg = s.cfg)

/-- R260: reset clears ERR and CAUSE, leaves sample memory and the parameters alone, and needs no other
preparation. The scratch arrays, unspecified after reset, are not spoken of. -/
def Obligations.ResetClearsErrAndCause : Prop :=
  ∀ (s : State) (rest : List HostAction), s.host = .reset :: rest →
    ∃ t, step s = .next t ∧ t.err = false ∧ t.cause = .none ∧ t.mem = s.mem ∧ t.cfg = s.cfg
      ∧ t.host = rest

/-- R270: the host's accesses to one existing sample; an access to an absent address stops the model
(notes/assumptions/6.md). -/
def Obligations.HostAccessesOneSample : Prop :=
  ∀ (s : State) (rest : List HostAction) (a : Word) (v : Sample), s.mem.wf = true →
    (s.host = .writeSample a v :: rest → admits s.cfg a = true →
      ∃ t, step s = .next t ∧ t.mem.read a = v ∧ (∀ b, b ≠ a → t.mem.read b = s.mem.read b)
        ∧ t.err = s.err ∧ t.cause = s.cause ∧ t.cfg = s.cfg ∧ t.scratch = s.scratch ∧ t.host = rest)
      ∧ (s.host = .readSample a :: rest → admits s.cfg a = true →
          step s = .next { s with host := rest })
      ∧ (s.host = .writeSample a v :: rest ∨ s.host = .readSample a :: rest →
          admits s.cfg a = false → step s = .fault (.absentHostAddress a))

/-- R270, R244: reading STATUS or CAP has no effect; without an action the engine is idle
(notes/assumptions/3.md). -/
def Obligations.StatusReadsAndIdlingHaveNoEffect : Prop :=
  ∀ (s : State) (rest : List HostAction),
    (s.host = .readStatus :: rest ∨ s.host = .readCap :: rest →
        step s = .next { s with host := rest })
      ∧ (s.host = [] → step s = .next s)

/-- R34, R35 and the codes of R231: the fields of STATUS and CAP. In every state that meets the invariant STATUS
reads 0 while ERR is 0, and names one of the causes 1 to 5 while ERR is 1 (R33). -/
def Obligations.StatusAndCapFields : Prop :=
  ∀ s : State,
    (statusWord s).toNat = s.err.toNat + 2 * (causeCode s.cause).toNat
      ∧ (s.cause = .none → (causeCode s.cause).toNat = 0)
      ∧ (s.cause = .reservedBits → (causeCode s.cause).toNat = 1)
      ∧ (s.cause = .illegalMode → (causeCode s.cause).toNat = 2)
      ∧ (s.cause = .illegalSize → (causeCode s.cause).toNat = 3)
      ∧ (s.cause = .unsupported → (causeCode s.cause).toNat = 4)
      ∧ (s.cause = .access → (causeCode s.cause).toNat = 5)
      ∧ (capWord s).toNat = s.cfg.hasII.toNat
      ∧ (s.Inv → s.err = false → (statusWord s).toNat = 0)
      ∧ (s.Inv → s.err = true →
          1 ≤ (statusWord s).toNat / 2 % 8 ∧ (statusWord s).toNat / 2 % 8 ≤ 5)

/-- R44: ERR, CAUSE and STATUS after reset. -/
def Obligations.ResetStateHasNoFault : Prop :=
  State.reset.err = false ∧ State.reset.cause = .none ∧ statusWord State.reset = 0

/-! ## Invariants -/

/-- The invariant holds after reset. -/
def Obligations.ResetMeetsTheInvariant : Prop := State.reset.Inv

/-- Every step keeps the invariant: canonical memory of existing addresses, CAUSE zero exactly when ERR is
zero (R33, R68). -/
def Obligations.EveryStepKeepsTheInvariant : Prop :=
  ∀ s t : State, s.Inv → step s = .next t → t.Inv

/-- R45: the open parameters never change during a run. -/
def Obligations.ParametersNeverChange : Prop :=
  ∀ s t : State, step s = .next t → t.cfg = s.cfg

/-! ## The results of the commands

Each statement begins with the bits of word 0 that select the command. It is also the command's completion: under
the conditions of R98 (`Ready`) `exec` answers a next state, and `WritesBlock` says what it is. The premise that memory is canonical is part of the invariant. -/

/-- R151. -/
def Obligations.PredDcWritesTheMean : Prop :=
  ∀ (o : Operands) (s : State), s.mem.wf = true → Ready (.predDc o) s →
    SelectedBy (.predDc o) 0 0 ∧ ∃ t, exec (.predDc o) s = .next t
      ∧ WritesBlock o (fun _ _ => dcOf o (contextAbove o s.mem) (contextLeft o s.mem)) s t

/-- R152. -/
def Obligations.PredVCopiesTheRowAbove : Prop :=
  ∀ (o : Operands) (s : State), s.mem.wf = true → Ready (.predV o) s →
    SelectedBy (.predV o) 0 1 ∧ ∃ t, exec (.predV o) s = .next t ∧ WritesBlock o (fun _ c => contextAbove o s.mem c) s t

/-- R153. -/
def Obligations.PredHCopiesTheLeftColumn : Prop :=
  ∀ (o : Operands) (s : State), s.mem.wf = true → Ready (.predH o) s →
    SelectedBy (.predH o) 0 2 ∧ ∃ t, exec (.predH o) s = .next t ∧ WritesBlock o (fun r _ => contextLeft o s.mem r) s t

/-- R154. -/
def Obligations.PredTmClampsTheSum : Prop :=
  ∀ (o : Operands) (s : State), s.mem.wf = true → Ready (.predTm o) s →
    SelectedBy (.predTm o) 0 3 ∧ ∃ t, exec (.predTm o) s = .next t
      ∧ WritesBlock o (tmOf (contextAbove o s.mem) (contextLeft o s.mem)) s t

/-- R173. -/
def Obligations.PredD45FillsAntiDiagonals : Prop :=
  ∀ (o : Operands) (s : State), s.mem.wf = true → Ready (.predD45 o) s →
    SelectedBy (.predD45 o) 0 4 ∧ ∃ t P, exec (.predD45 o) s = .next t
      ∧ IsD45 (side o) (contextAbove o s.mem) (contextLeft o s.mem) P ∧ WritesBlock o P s t

/-- R174. -/
def Obligations.PredD135CopiesAlongDiagonals : Prop :=
  ∀ (o : Operands) (s : State), s.mem.wf = true → Ready (.predD135 o) s →
    SelectedBy (.predD135 o) 0 5 ∧ ∃ t P, exec (.predD135 o) s = .next t
      ∧ IsD135 (side o) (contextAbove o s.mem) (contextLeft o s.mem) P ∧ WritesBlock o P s t

/-- R175. -/
def Obligations.PredD117PropagatesTwoRowsDown : Prop :=
  ∀ (o : Operands) (s : State), s.mem.wf = true → Ready (.predD117 o) s →
    SelectedBy (.predD117 o) 0 6 ∧ ∃ t P, exec (.predD117 o) s = .next t
      ∧ IsD117 (side o) (contextAbove o s.mem) (contextLeft o s.mem) P ∧ WritesBlock o P s t

/-- R176. -/
def Obligations.PredD153PropagatesTwoColumnsRight : Prop :=
  ∀ (o : Operands) (s : State), s.mem.wf = true → Ready (.predD153 o) s →
    SelectedBy (.predD153 o) 0 7 ∧ ∃ t P, exec (.predD153 o) s = .next t
      ∧ IsD153 (side o) (contextAbove o s.mem) (contextLeft o s.mem) P ∧ WritesBlock o P s t

/-- R177. -/
def Obligations.PredD27ProjectsTheLeftColumn : Prop :=
  ∀ (o : Operands) (s : State), s.mem.wf = true → Ready (.predD27 o) s →
    SelectedBy (.predD27 o) 0 8 ∧ ∃ t P, exec (.predD27 o) s = .next t
      ∧ IsD27 (side o) (contextAbove o s.mem) (contextLeft o s.mem) P ∧ WritesBlock o P s t

/-- R178. -/
def Obligations.PredD63ProjectsTheRowAbove : Prop :=
  ∀ (o : Operands) (s : State), s.mem.wf = true → Ready (.predD63 o) s →
    SelectedBy (.predD63 o) 0 9 ∧ ∃ t P, exec (.predD63 o) s = .next t
      ∧ IsD63 (side o) (contextAbove o s.mem) (contextLeft o s.mem) P ∧ WritesBlock o P s t

/-- R205: the weight is 128 everywhere. -/
def Obligations.IipredDcAveragesWithTheMean : Prop :=
  ∀ (o : Operands) (s : State), s.mem.wf = true → Ready (.iipredDc o) s →
    SelectedBy (.iipredDc o) 1 0 ∧ ∃ t, exec (.iipredDc o) s = .next t
      ∧ WritesBlock o (fun r c =>
          (interSample o s.mem r c + dcOf o (contextAbove o s.mem) (contextLeft o s.mem)) / 2) s t

/-- R206: the weight decays down the rows. -/
def Obligations.IipredVBlendsByRow : Prop :=
  ∀ (o : Operands) (s : State), s.mem.wf = true → Ready (.iipredV o) s →
    SelectedBy (.iipredV o) 1 1 ∧ ∃ t, exec (.iipredV o) s = .next t
      ∧ WritesBlock o (fun r c =>
          mixed (decay o r) (interSample o s.mem r c) (contextAbove o s.mem c)) s t

/-- R207: the weight decays along the columns. -/
def Obligations.IipredHBlendsByColumn : Prop :=
  ∀ (o : Operands) (s : State), s.mem.wf = true → Ready (.iipredH o) s →
    SelectedBy (.iipredH o) 1 2 ∧ ∃ t, exec (.iipredH o) s = .next t
      ∧ WritesBlock o (fun r c =>
          mixed (decay o c) (interSample o s.mem r c) (contextLeft o s.mem r)) s t

/-- R208: the weight is 128 everywhere. -/
def Obligations.IipredTmAveragesWithTheClampedSum : Prop :=
  ∀ (o : Operands) (s : State), s.mem.wf = true → Ready (.iipredTm o) s →
    SelectedBy (.iipredTm o) 1 3 ∧ ∃ t, exec (.iipredTm o) s = .next t
      ∧ WritesBlock o (fun r c =>
          (interSample o s.mem r c + tmOf (contextAbove o s.mem) (contextLeft o s.mem) r c) / 2) s t

/-- R209: the weight is the average of the two axes' weights. -/
def Obligations.IipredD45BlendsByBothAxes : Prop :=
  ∀ (o : Operands) (s : State), s.mem.wf = true → Ready (.iipredD45 o) s →
    SelectedBy (.iipredD45 o) 1 4 ∧ ∃ t P, exec (.iipredD45 o) s = .next t
      ∧ IsD45 (side o) (contextAbove o s.mem) (contextLeft o s.mem) P
      ∧ WritesBlock o (fun r c =>
          mixed ((decay o r + decay o c) / 2) (interSample o s.mem r c) (P r c)) s t

/-- R210: the weight is that of the nearer edge. -/
def Obligations.IipredD135BlendsByTheNearerEdge : Prop :=
  ∀ (o : Operands) (s : State), s.mem.wf = true → Ready (.iipredD135 o) s →
    SelectedBy (.iipredD135 o) 1 5 ∧ ∃ t P, exec (.iipredD135 o) s = .next t
      ∧ IsD135 (side o) (contextAbove o s.mem) (contextLeft o s.mem) P
      ∧ WritesBlock o (fun r c =>
          mixed (decay o (min r c)) (interSample o s.mem r c) (P r c)) s t

/-- R211: the weight leans 3:1 on the row. -/
def Obligations.IipredD117BlendsMostlyByRow : Prop :=
  ∀ (o : Operands) (s : State), s.mem.wf = true → Ready (.iipredD117 o) s →
    SelectedBy (.iipredD117 o) 1 6 ∧ ∃ t P, exec (.iipredD117 o) s = .next t
      ∧ IsD117 (side o) (contextAbove o s.mem) (contextLeft o s.mem) P
      ∧ WritesBlock o (fun r c =>
          mixed ((3 * decay o r + decay o c) / 4) (interSample o s.mem r c) (P r c)) s t

/-- R212: the weight leans 3:1 on the column. -/
def Obligations.IipredD153BlendsMostlyByColumn : Prop :=
  ∀ (o : Operands) (s : State), s.mem.wf = true → Ready (.iipredD153 o) s →
    SelectedBy (.iipredD153 o) 1 7 ∧ ∃ t P, exec (.iipredD153 o) s = .next t
      ∧ IsD153 (side o) (contextAbove o s.mem) (contextLeft o s.mem) P
      ∧ WritesBlock o (fun r c =>
          mixed ((3 * decay o c + decay o r) / 4) (interSample o s.mem r c) (P r c)) s t

/-- R213: the weight leans 3:1 on the column. -/
def Obligations.IipredD27BlendsMostlyByColumn : Prop :=
  ∀ (o : Operands) (s : State), s.mem.wf = true → Ready (.iipredD27 o) s →
    SelectedBy (.iipredD27 o) 1 8 ∧ ∃ t P, exec (.iipredD27 o) s = .next t
      ∧ IsD27 (side o) (contextAbove o s.mem) (contextLeft o s.mem) P
      ∧ WritesBlock o (fun r c =>
          mixed ((3 * decay o c + decay o r) / 4) (interSample o s.mem r c) (P r c)) s t

/-- R214: the weight leans 3:1 on the row. -/
def Obligations.IipredD63BlendsMostlyByRow : Prop :=
  ∀ (o : Operands) (s : State), s.mem.wf = true → Ready (.iipredD63 o) s →
    SelectedBy (.iipredD63 o) 1 9 ∧ ∃ t P, exec (.iipredD63 o) s = .next t
      ∧ IsD63 (side o) (contextAbove o s.mem) (contextLeft o s.mem) P
      ∧ WritesBlock o (fun r c =>
          mixed ((3 * decay o r + decay o c) / 4) (interSample o s.mem r c) (P r c)) s t

/-! ## Where a command faults, and what it leaves alone -/

/-- R95, R215: without the blender every `IIPRED` of a legal shape faults with UNSUPPORTED. -/
def Obligations.IipredWithoutBlenderIsUnsupported : Prop :=
  ∀ (i : Instr) (s : State), s.err = false → i.wellFormed = true → i.ii = true →
    s.cfg.hasII = false →
    exec i s = .next { s with err := true, cause := .unsupported }

/-- R68: a command whose footprint holds an address that does not exist faults with ACCESS and performs no
access; if every address exists, no access of the command fails. -/
def Obligations.AdmissionDecidesTheAccessFault : Prop :=
  ∀ (i : Instr) (s : State), s.err = false → i.wellFormed = true →
    (i.ii = true → s.cfg.hasII = true) →
    ((∃ a ∈ readSet i.ii i.operands ++ writeSet i.operands, admits s.cfg a = false) →
        exec i s = .next { s with err := true, cause := .access })
      ∧ ((∀ a ∈ readSet i.ii i.operands ++ writeSet i.operands, admits s.cfg a = true) →
        ∃ t, exec i s = .next t ∧ t.err = false ∧ t.cause = s.cause)

/-- The frame of all twenty commands (R65, R77): in every case memory outside the write set, the parameters and
the host's list are unchanged; a command that completes changes neither ERR nor CAUSE. -/
def Obligations.CommandsKeepEverythingElse : Prop :=
  ∀ (i : Instr) (s t : State), s.mem.wf = true → exec i s = .next t →
    (∀ a, a ∉ writeSet i.operands → t.mem.read a = s.mem.read a)
      ∧ t.cfg = s.cfg ∧ t.host = s.host
      ∧ (Ready i s → t.err = s.err ∧ t.cause = s.cause)
      ∧ (¬ Ready i s → t.mem = s.mem ∧ t.scratch = s.scratch)

/-- The frame of the scratch arrays (R36, R37, R38): what a completed command does not write keeps what it
held. That unwritten elements are kept and not lost is the model's choice (notes/assumptions/4.md). -/
def Obligations.CommandsWriteOnlyTheirScratch : Prop :=
  ∀ (i : Instr) (s t : State), Ready i s → exec i s = .next t →
    let n := if directionalMode i.mode then side i.operands else 0
    (∀ j : Int, max (width i.operands) n ≤ j → j < 64 → t.scratch.aboveAt j = s.scratch.aboveAt j)
      ∧ (∀ j, max (height i.operands) n ≤ j → j < 64 → t.scratch.leftAt j = s.scratch.leftAt j)
      ∧ (∀ r c, r < 64 → c < 64 → ¬ (r < n ∧ c < n) →
          squareGet t.scratch.sq r c = squareGet s.scratch.sq r c)
      ∧ (∀ r c, r < 64 → c < 64 →
          ¬ (i.ii = true ∧ r < height i.operands ∧ c < width i.operands) →
          squareGet t.scratch.ib r c = squareGet s.scratch.ib r c)

/-- R136: two commands that differ only in RIGHT have the same effect. -/
def Obligations.RightFlagHasNoEffect : Prop :=
  ∀ (ii : Bool) (m : Mode) (o : Operands) (right : Bool) (s : State),
    exec (instrOf ii m { o with right := right }) s = exec (instrOf ii m o) s

/-- R43, R36 to R38: the scratch arrays are not observable. Two states that differ in them alone step to states
that differ in them alone. -/
def Obligations.ScratchIsNotObservable : Prop :=
  ∀ (s t : State) (scratch : Scratch), step s = .next t →
    ∃ scratch', step { s with scratch := scratch } = .next { t with scratch := scratch' }

/-- R64, R71: the samples a command writes depend on memory through its read set alone, whatever the scratch
arrays held. -/
def Obligations.ResultDependsOnTheReadSetAlone : Prop :=
  ∀ (i : Instr) (s s' t t' : State), s.mem.wf = true → s'.mem.wf = true → Ready i s → Ready i s' →
    (∀ a ∈ readSet i.ii i.operands, s.mem.read a = s'.mem.read a) →
    exec i s = .next t → exec i s' = .next t' →
    ∀ a ∈ writeSet i.operands, t.mem.read a = t'.mem.read a

/-- R76: a `PRED` command whose write set is disjoint from its read set is idempotent. -/
def Obligations.PredIsIdempotent : Prop :=
  ∀ (i : Instr) (s t u : State), s.mem.wf = true → i.ii = false → Ready i s →
    (∀ a ∈ readSet i.ii i.operands, a ∉ writeSet i.operands) →
    exec i s = .next t → exec i t = .next u → ∀ a, u.mem.read a = t.mem.read a

/-- R265: two independent commands that complete give the same memory in either order. -/
def Obligations.IndependentCommandsCommute : Prop :=
  ∀ (i j : Instr) (s t u t' u' : State), s.mem.wf = true → Ready i s → Ready j s →
    (∀ a ∈ writeSet i.operands,
      a ∉ readSet j.ii j.operands ∧ a ∉ writeSet j.operands) →
    (∀ a ∈ writeSet j.operands,
      a ∉ readSet i.ii i.operands ∧ a ∉ writeSet i.operands) →
    exec i s = .next t → exec j t = .next u →
    exec j s = .next t' → exec i t' = .next u' →
    ∀ a, u.mem.read a = u'.mem.read a

/-- R77: in-place prediction with a stride of more than the block width and no wrap-around has disjoint read and
write sets. -/
def Obligations.InPlaceFootprintsAreDisjoint : Prop :=
  ∀ o : Operands, o.dst = o.src → o.ds = o.ss → width o + 1 ≤ o.ss.toNat →
    o.ss.toNat + 1 ≤ o.src.toNat →
    o.src.toNat + (height o - 1) * o.ss.toNat + width o ≤ 2 ^ 32 →
    ∀ a ∈ readSet false o, a ∉ writeSet o

/-! ## Properties of the kernels and of the arithmetic -/

/-- R172 (a), (b): every kernel writes every cell of its square exactly once, no other cell, and reads a cell only
after writing it. -/
def Obligations.KernelsWriteEachCellOnceBeforeReading : Prop :=
  ∀ m : Mode, directionalMode m = true → ∀ n ∈ [4, 8, 16, 32, 64],
    (∀ r c, ((kernelOf m n).map fun w => (w.row, w.col)).count (r, c) =
      if r < n ∧ c < n then 1 else 0)
      ∧ ∀ (before after : List CellWrite) (w : CellWrite), kernelOf m n = before ++ w :: after →
          ∀ p ∈ w.value.cells, p ∈ before.map fun v => (v.row, v.col)

/-- R179: the context elements each kernel reads; every index of the range, and no other. -/
def Obligations.KernelsReadTheListedContext : Prop :=
  ∀ n ∈ [4, 8, 16, 32, 64],
    let aboves := fun (m : Mode) (i : Int) => ∃ w ∈ kernelOf m n, i ∈ w.value.aboves
    let lefts := fun (m : Mode) (i : Nat) => ∃ w ∈ kernelOf m n, i ∈ w.value.lefts
    (∀ i, aboves .d45 i ↔ 1 ≤ i ∧ i ≤ n - 1) ∧ (∀ i, lefts .d45 i ↔ 1 ≤ i ∧ i ≤ n - 1)
      ∧ (∀ i, aboves .d135 i ↔ -1 ≤ i ∧ i ≤ n - 2) ∧ (∀ i, lefts .d135 i ↔ i ≤ n - 2)
      ∧ (∀ i, aboves .d117 i ↔ -1 ≤ i ∧ i ≤ n - 1) ∧ (∀ i, lefts .d117 i ↔ i ≤ n - 3)
      ∧ (∀ i, aboves .d153 i ↔ -1 ≤ i ∧ i ≤ n - 3) ∧ (∀ i, lefts .d153 i ↔ i ≤ n - 1)
      ∧ (∀ i, aboves .d27 i ↔ 2 ≤ i ∧ i ≤ n - 1) ∧ (∀ i, lefts .d27 i ↔ i ≤ n - 1)
      ∧ (∀ i, aboves .d63 i ↔ 0 ≤ i ∧ i ≤ n - 1) ∧ (∀ i, lefts .d63 i ↔ 2 ≤ i ∧ i ≤ n - 1)

/-- R172 (g), R177: D27 is D63 with rows and columns, and `above` and `left`, exchanged. -/
def Obligations.D27IsTheTransposeOfD63 : Prop :=
  ∀ n ∈ [4, 8, 16, 32, 64], ∀ s t : Scratch,
    (∀ j : Nat, j < n → s.leftAt j = t.aboveAt j ∧ s.aboveAt j = t.leftAt j) →
    ∀ r c, r < n → c < n →
      squareGet (runKernel (kernelD27 n) s).sq r c = squareGet (runKernel (kernelD63 n) t).sq c r

/-- R172 (f), 95_test_vectors.md section 2.5: a constant context is predicted as that constant, by every mode and
for every shape. -/
def Obligations.ConstantContextIsPredictedConstant : Prop :=
  ∀ (i : Instr) (s : State) (k : Nat), s.mem.wf = true → i.ii = false → Ready i s →
    (∀ j : Int, -1 ≤ j → j < side i.operands → contextAbove i.operands s.mem j = k) →
    (∀ j : Nat, j < side i.operands → contextLeft i.operands s.mem j = k) →
    ∃ t, exec i s = .next t ∧ ∀ a ∈ writeSet i.operands, (t.mem.read a).toNat = k

/-- R181: a directional mode on a non-square block gives the top-left part of the same mode on the square whose
context is the extended one. -/
def Obligations.NonSquareIsTheCroppedSquare : Prop :=
  ∀ (m : Mode) (o o' : Operands) (s s' t t' : State),
    directionalMode m = true → s.mem.wf = true → s'.mem.wf = true →
    width o' = side o → height o' = side o →
    (∀ j : Int, -1 ≤ j → j < side o → contextAbove o' s'.mem j = contextAbove o s.mem j) →
    (∀ j : Nat, j < side o → contextLeft o' s'.mem j = contextLeft o s.mem j) →
    Ready (instrOf false m o) s → Ready (instrOf false m o') s' →
    exec (instrOf false m o) s = .next t → exec (instrOf false m o') s' = .next t' →
    ∀ r c, r < height o → c < width o → LastWriter o r c → LastWriter o' r c →
      t.mem.read (addr o.dst o.ds r c) = t'.mem.read (addr o'.dst o'.ds r c)

/-- R62: the address of a sample, and large stride words acting as negative strides. -/
def Obligations.AddressesWrapAndStridesMayBeNegative : Prop :=
  ∀ (b s : Word) (r c : Int),
    ((addr b s r c).toNat : Int) = ((b.toNat : Int) + r * s.toNat + c) % 2 ^ 32
      ∧ ((addr b (-s) r c).toNat : Int) = ((b.toNat : Int) - r * s.toNat + c) % 2 ^ 32

/-- R122: the rounding rule of the scale table. -/
def Obligations.ScaleTableFollowsItsRoundingRule : Prop :=
  iscaleTable.length = 64
    ∧ ∀ i, i < 64 → iscale i =
        if (i + 2) % 2 = 0 then (65536 + (i + 2) - 1) / (i + 2) else (65536 + (i + 2) / 2) / (i + 2)

/-- R125: where the multiply-round-shift is the rounded division. Exactly so for every index and every value up to
1020; over the range the hardware uses, exactly so for the listed indices, 0 to 15 (sides up to 16) among them; for
each other index it differs, by 1 and never by more, first at the listed value. -/
def Obligations.ScaledValueIsNearTheRoundedQuotient : Prop :=
  let exact : List Nat := upTo 0 20 ++ [22, 27, 29, 30, 31, 49, 56, 62]
  let firstDifference : List (Nat × Nat) :=
    [(21, 3646), (23, 2988), (24, 6564), (25, 4685), (26, 5473), (28, 4694), (32, 4096), (33, 2083),
      (34, 3293), (35, 3645), (36, 4692), (37, 2087)]
    ++ [(38, 2739), (39, 1825), (40, 2540), (41, 8235), (42, 2749), (43, 2093), (44, 4714), (45, 1857),
      (46, 2087), (47, 1446), (48, 4724), (50, 1845)]
    ++ [(51, 1351), (52, 3320), (53, 1402), (54, 1651), (55, 2365), (57, 2566), (58, 1529), (59, 1495),
      (60, 1146), (61, 2111), (63, 2113)]
  (∀ i v, i < 64 → v ≤ 1020 → iscaleRound v i = roundDiv v (i + 2))
    ∧ (∀ i v, i ∈ exact → v ≤ 255 * (i + 2) → iscaleRound v i = roundDiv v (i + 2))
    ∧ (∀ i v, i < 64 → v ≤ 255 * (i + 2) →
        iscaleRound v i ≤ roundDiv v (i + 2) + 1 ∧ roundDiv v (i + 2) ≤ iscaleRound v i + 1)
    ∧ (∀ i, i < 64 → i ∉ exact → ∃ v, (i, v) ∈ firstDifference)
    ∧ (∀ i v, (i, v) ∈ firstDifference → v ≤ 255 * (i + 2) ∧ iscaleRound v i ≠ roundDiv v (i + 2)
        ∧ ∀ u, u < v → iscaleRound u i = roundDiv u (i + 2))

/-- R124: a weighted average of two samples lies between them; of two equal samples it is that sample. -/
def Obligations.WeightedAverageLiesBetween : Prop :=
  ∀ wa wb a b : Nat, 2 ≤ wa + wb → wa + wb ≤ 65 → a ≤ 255 → b ≤ 255 →
    min a b ≤ iscaleRound (wa * a + wb * b) (wa + wb - 2)
      ∧ iscaleRound (wa * a + wb * b) (wa + wb - 2) ≤ max a b

/-- R203: the blend formula and its laws. -/
def Obligations.BlendLiesBetween : Prop :=
  ∀ w p q : Nat, w ≤ 256 → p ≤ 255 → q ≤ 255 →
    blendW w p q = ((256 - w) * p + w * q + 127) / 256
      ∧ min p q ≤ blendW w p q ∧ blendW w p q ≤ max p q
      ∧ blendW w p p = p ∧ blendW 0 p q = p ∧ blendW 256 p q = q ∧ blendW 128 p q = (p + q) / 2

/-- R201, R202, R204: the weight table decays from 128 at position 0 to 67 at position 63, with the entries that
95_test_vectors.md section 2.7 lists at every eighth position, and every weight of every mode lies in [67,128]. -/
def Obligations.WeightsDecayWithinTheTable : Prop :=
  (w1dTable.length = 64 ∧ w1d 0 = 128 ∧ w1d 63 = 67
      ∧ (∀ i j, i ≤ j → j < 64 → w1d j ≤ w1d i)
      ∧ (List.range 8).map (fun k => w1d (8 * k)) = [128, 107, 93, 83, 77, 73, 70, 68])
    ∧ ∀ (m : Mode) (o : Operands) (r c : Nat), r < height o → c < width o →
        67 ≤ weight m o r c ∧ weight m o r c ≤ 128
end

