-- ==== Sys2Proof/Laws/Arith.lean ====
section
/-!
SUPPORT. Bounds of the integer primitives, which show that no result is cut off where it becomes a sample
(40_common.md R127).
-/

namespace Sys2Proof.Machine

theorem avg2_eq (a b : Nat) : avg2 a b = (a + b + 1) / 2 := by
  simp [avg2, rp2, Nat.shiftRight_eq_div_pow]

theorem avg2_le {a b k : Nat} (ha : a ≤ k) (hb : b ≤ k) : avg2 a b ≤ k := by
  rw [avg2_eq]
  omega

theorem iscaleRound_eq (v i : Nat) : iscaleRound v i = (v * iscale i + 32768) / 65536 := by
  simp [iscaleRound, Nat.shiftRight_eq_div_pow]

/-- The largest weighted sum of two samples does not leave the sample range. -/
theorem iscale_bound {i : Nat} (hi : i < 64) : 255 * (i + 2) * iscale i + 32768 < 2 ^ 24 := by
  revert i
  decide +kernel

theorem iscaleRound_le {v i : Nat} (hi : i < 64) (hv : v ≤ 255 * (i + 2)) :
    iscaleRound v i ≤ 255 := by
  have h := iscale_bound hi
  have h' : v * iscale i ≤ 255 * (i + 2) * iscale i := Nat.mul_le_mul_right _ hv
  rw [iscaleRound_eq]
  omega

theorem weighted_le {wa a wb b i : Nat} (hi : i < 64) (hw : wa + wb = i + 2) (ha : a ≤ 255)
    (hb : b ≤ 255) : iscaleRound (wa * a + wb * b) i ≤ 255 := by
  refine iscaleRound_le hi ?_
  have h1 : wa * a ≤ wa * 255 := Nat.mul_le_mul_left _ ha
  have h2 : wb * b ≤ wb * 255 := Nat.mul_le_mul_left _ hb
  omega

theorem clamp255_le (x : Int) : clamp255 x ≤ 255 := by
  unfold clamp255
  grind

theorem sample_le (v : Sample) : v.toNat ≤ 255 := by
  have := v.isLt
  omega

/-- A value in the sample range becomes the sample of that value. -/
theorem toSample_toNat {x : Nat} (h : x ≤ 255) : (toSample x).toNat = x := by
  simp only [toSample, BitVec.toNat_ofNat]
  omega

theorem w1d_le (i : Nat) : w1d i ≤ 128 := by
  by_cases h : i < 64
  · revert i
    decide +kernel
  · have : w1dTable.length = 64 := by decide
    simp [w1d, List.getD, List.getElem?_eq_none (show w1dTable.length ≤ i by omega)]

end Sys2Proof.Machine
end

