-- ==== Sys2Proof/Laws/State.lean ====
section
/-!
SUPPORT. What each update of the state does to each field, and the laws of sample memory and of the
scratch arrays: a read after a write, and the canonical form.
-/

namespace Sys2Proof.Machine

/-! The updates of the state, field by field. -/

@[simp] theorem raiseFault_mem (c : Cause) (s : State) : (raiseFault c s).mem = s.mem := rfl
@[simp] theorem raiseFault_err (c : Cause) (s : State) : (raiseFault c s).err = true := rfl
@[simp] theorem raiseFault_cause (c : Cause) (s : State) : (raiseFault c s).cause = c := rfl
@[simp] theorem raiseFault_cfg (c : Cause) (s : State) : (raiseFault c s).cfg = s.cfg := rfl
@[simp] theorem raiseFault_scratch (c : Cause) (s : State) :
    (raiseFault c s).scratch = s.scratch := rfl
@[simp] theorem raiseFault_host (c : Cause) (s : State) : (raiseFault c s).host = s.host := rfl

@[simp] theorem applyReset_mem (s : State) : (applyReset s).mem = s.mem := rfl
@[simp] theorem applyReset_err (s : State) : (applyReset s).err = false := rfl
@[simp] theorem applyReset_cause (s : State) : (applyReset s).cause = .none := rfl
@[simp] theorem applyReset_cfg (s : State) : (applyReset s).cfg = s.cfg := rfl
@[simp] theorem applyReset_scratch (s : State) : (applyReset s).scratch = s.scratch := rfl
@[simp] theorem applyReset_host (s : State) : (applyReset s).host = s.host := rfl

theorem perform_mem (ii : Bool) (m : Mode) (o : Operands) (s : State) :
    (perform ii m o s).mem = writeBack o (computePhase ii m o (readPhase ii o s)).2 s.mem := rfl
theorem perform_scratch (ii : Bool) (m : Mode) (o : Operands) (s : State) :
    (perform ii m o s).scratch = (computePhase ii m o (readPhase ii o s)).1 := rfl
@[simp] theorem perform_err (ii : Bool) (m : Mode) (o : Operands) (s : State) :
    (perform ii m o s).err = s.err := rfl
@[simp] theorem perform_cause (ii : Bool) (m : Mode) (o : Operands) (s : State) :
    (perform ii m o s).cause = s.cause := rfl
@[simp] theorem perform_cfg (ii : Bool) (m : Mode) (o : Operands) (s : State) :
    (perform ii m o s).cfg = s.cfg := rfl
@[simp] theorem perform_host (ii : Bool) (m : Mode) (o : Operands) (s : State) :
    (perform ii m o s).host = s.host := rfl

/-! The setters of the scratch arrays, array by array. -/

@[simp] theorem setAbove_left (sc : Scratch) (i : Int) (v : Sample) :
    (sc.setAbove i v).left = sc.left := rfl
@[simp] theorem setAbove_sq (sc : Scratch) (i : Int) (v : Sample) :
    (sc.setAbove i v).sq = sc.sq := rfl
@[simp] theorem setAbove_ib (sc : Scratch) (i : Int) (v : Sample) :
    (sc.setAbove i v).ib = sc.ib := rfl
@[simp] theorem setLeft_above (sc : Scratch) (i : Nat) (v : Sample) :
    (sc.setLeft i v).above = sc.above := rfl
@[simp] theorem setLeft_sq (sc : Scratch) (i : Nat) (v : Sample) :
    (sc.setLeft i v).sq = sc.sq := rfl
@[simp] theorem setLeft_ib (sc : Scratch) (i : Nat) (v : Sample) :
    (sc.setLeft i v).ib = sc.ib := rfl
@[simp] theorem setSq_above (sc : Scratch) (r c : Nat) (v : Sample) :
    (sc.setSq r c v).above = sc.above := rfl
@[simp] theorem setSq_left (sc : Scratch) (r c : Nat) (v : Sample) :
    (sc.setSq r c v).left = sc.left := rfl
@[simp] theorem setSq_ib (sc : Scratch) (r c : Nat) (v : Sample) :
    (sc.setSq r c v).ib = sc.ib := rfl
@[simp] theorem setIb_above (sc : Scratch) (r c : Nat) (v : Sample) :
    (sc.setIb r c v).above = sc.above := rfl
@[simp] theorem setIb_left (sc : Scratch) (r c : Nat) (v : Sample) :
    (sc.setIb r c v).left = sc.left := rfl
@[simp] theorem setIb_sq (sc : Scratch) (r c : Nat) (v : Sample) :
    (sc.setIb r c v).sq = sc.sq := rfl

/-! Reads of a written array element. -/

theorem rowGet_rowSet {n : Nat} (v : Vector Sample n) (i j : Nat) (x : Sample) (hj : j < n) :
    rowGet (rowSet v i x) j = if i = j then x else rowGet v j := by
  unfold rowGet rowSet
  by_cases hi : i < n
  · simp [hi, hj, Vector.getElem_set]
  · have : i ≠ j := by omega
    simp [hi, hj, this]

theorem squareGet_squareSet (p : Square) (r c r' c' : Nat) (x : Sample)
    (hr : r' < 64) (hc : c' < 64) :
    squareGet (squareSet p r c x) r' c' = if r = r' ∧ c = c' then x else squareGet p r' c' := by
  unfold squareGet squareSet
  by_cases h : r < 64
  · simp only [h, hr, dite_true]
    by_cases e : r = r'
    · subst e
      simp [rowGet_rowSet _ _ _ _ hc]
    · simp [e]
  · have : r ≠ r' := by omega
    simp [h, hr, this]

@[simp] theorem aboveAt_setLeft (sc : Scratch) (i : Nat) (v : Sample) (j : Int) :
    (sc.setLeft i v).aboveAt j = sc.aboveAt j := rfl
@[simp] theorem aboveAt_setSq (sc : Scratch) (r c : Nat) (v : Sample) (j : Int) :
    (sc.setSq r c v).aboveAt j = sc.aboveAt j := rfl
@[simp] theorem aboveAt_setIb (sc : Scratch) (r c : Nat) (v : Sample) (j : Int) :
    (sc.setIb r c v).aboveAt j = sc.aboveAt j := rfl
@[simp] theorem leftAt_setAbove (sc : Scratch) (i : Int) (v : Sample) (j : Nat) :
    (sc.setAbove i v).leftAt j = sc.leftAt j := rfl
@[simp] theorem leftAt_setSq (sc : Scratch) (r c : Nat) (v : Sample) (j : Nat) :
    (sc.setSq r c v).leftAt j = sc.leftAt j := rfl
@[simp] theorem leftAt_setIb (sc : Scratch) (r c : Nat) (v : Sample) (j : Nat) :
    (sc.setIb r c v).leftAt j = sc.leftAt j := rfl

theorem leftAt_setLeft (sc : Scratch) (i j : Nat) (v : Sample) (hj : j < 64) :
    (sc.setLeft i v).leftAt j = if i = j then v else sc.leftAt j :=
  rowGet_rowSet sc.left i j v hj

theorem aboveAt_setAbove (sc : Scratch) (i j : Int) (v : Sample) (hi : -1 ≤ i) (hj : -1 ≤ j)
    (hj' : j < 64) :
    (sc.setAbove i v).aboveAt j = if i = j then v else sc.aboveAt j := by
  have h := rowGet_rowSet sc.above (i + 1).toNat (j + 1).toNat v (by omega)
  have e : ((i + 1).toNat = (j + 1).toNat) ↔ i = j := by omega
  simp only [e] at h
  exact h

/-! Sample memory. -/

@[simp] theorem Memory.read_nil (a : Word) : Memory.read [] a = fillSample := rfl

theorem Memory.wfFrom_cons {lo k : Nat} {v : Sample} {m : Memory} :
    Memory.wfFrom lo ((k, v) :: m) = true ↔
      lo ≤ k ∧ k < 2 ^ 32 ∧ v ≠ fillSample ∧ Memory.wfFrom (k + 1) m = true := by
  simp [Memory.wfFrom, and_assoc]

theorem Memory.wfFrom_mono {lo lo' : Nat} (h : lo' ≤ lo) {m : Memory}
    (hm : Memory.wfFrom lo m = true) : Memory.wfFrom lo' m = true := by
  cases m with
  | nil => rfl
  | cons c m =>
    rw [Memory.wfFrom_cons] at hm ⊢
    exact ⟨by omega, hm.2⟩

/-- Below the first possible address a memory reads as unlisted. -/
theorem Memory.read_of_lt {lo : Nat} {m : Memory} (hm : Memory.wfFrom lo m = true) {a : Word}
    (h : a.toNat < lo) : m.read a = fillSample := by
  cases m with
  | nil => rfl
  | cons c m =>
    have := (Memory.wfFrom_cons.mp hm).1
    simp [Memory.read, show a.toNat < c.1 by omega]

theorem Memory.wfFrom_write {lo : Nat} {m : Memory} (hm : Memory.wfFrom lo m = true) {a : Word}
    (v : Sample) (ha : lo ≤ a.toNat) : Memory.wfFrom lo (m.write a v) = true := by
  induction m generalizing lo with
  | nil =>
    unfold Memory.write
    split
    · rfl
    · exact Memory.wfFrom_cons.mpr ⟨ha, a.isLt, ‹_›, rfl⟩
  | cons c m ih =>
    obtain ⟨k, w⟩ := c
    have h := Memory.wfFrom_cons.mp hm
    unfold Memory.write
    split
    · split
      · exact hm
      · exact Memory.wfFrom_cons.mpr
          ⟨ha, a.isLt, ‹_›, Memory.wfFrom_cons.mpr ⟨by omega, h.2⟩⟩
    · split
      · split
        · exact Memory.wfFrom_mono (by omega) h.2.2.2
        · exact Memory.wfFrom_cons.mpr ⟨ha, a.isLt, ‹_›, by subst_vars; exact h.2.2.2⟩
      · exact Memory.wfFrom_cons.mpr ⟨h.1, h.2.1, h.2.2.1, ih h.2.2.2 (by omega)⟩

/-- A write keeps the canonical form. -/
theorem Memory.wf_write {m : Memory} (hm : m.wf = true) (a : Word) (v : Sample) :
    (m.write a v).wf = true :=
  Memory.wfFrom_write hm v (Nat.zero_le _)

theorem Memory.read_write_from {lo : Nat} {m : Memory} (hm : Memory.wfFrom lo m = true) (a b : Word)
    (v : Sample) : (m.write a v).read b = if a = b then v else m.read b := by
  have hab : a = b ↔ a.toNat = b.toNat := BitVec.toNat_inj.symm
  simp only [hab]
  induction m generalizing lo with
  | nil => grind [Memory.read, Memory.write]
  | cons c m ih =>
    obtain ⟨k, w⟩ := c
    have h := Memory.wfFrom_cons.mp hm
    have hr : b.toNat < k + 1 → Memory.read m b = fillSample := Memory.read_of_lt h.2.2.2
    have hi := ih h.2.2.2
    grind [Memory.read, Memory.write]

/-- A read after a write: the written value at the written address, the old value elsewhere. -/
theorem Memory.read_write {m : Memory} (hm : m.wf = true) (a b : Word) (v : Sample) :
    (m.write a v).read b = if a = b then v else m.read b :=
  Memory.read_write_from hm a b v

end Sys2Proof.Machine
end

