-- ==== Sys2Proof/Laws/Context.lean ====
section
/-!
SUPPORT. The loops of the read phase: what the builder, the adapter and the loading of the inter block leave
in the scratch arrays, in closed form.
-/

namespace Sys2Proof.Machine

@[simp] theorem mem_upTo {a b i : Nat} : i ∈ upTo a b ↔ a ≤ i ∧ i ≤ b := by
  unfold upTo
  rw [List.mem_range'_1]
  omega

@[simp] theorem mem_downTo {a b i : Nat} : i ∈ downTo a b ↔ b ≤ i ∧ i ≤ a := by
  simp [downTo]

theorem samples_cases (c : SizeCode) :
    samples c = 4 ∨ samples c = 8 ∨ samples c = 16 ∨ samples c = 32 ∨ samples c = 64 := by
  cases c <;> simp [samples, SizeCode.code]

theorem samples_bounds (c : SizeCode) : 4 ≤ samples c ∧ samples c ≤ 64 := by
  have := samples_cases c
  omega

theorem width_bounds (o : Operands) : 4 ≤ width o ∧ width o ≤ 64 := samples_bounds o.bwl

theorem height_bounds (o : Operands) : 4 ≤ height o ∧ height o ≤ 64 := samples_bounds o.bhl

theorem side_bounds (o : Operands) :
    width o ≤ side o ∧ height o ≤ side o ∧ 4 ≤ side o ∧ side o ≤ 64 := by
  have := width_bounds o
  have := height_bounds o
  unfold side
  omega

theorem side_cases (o : Operands) :
    side o = 4 ∨ side o = 8 ∨ side o = 16 ∨ side o = 32 ∨ side o = 64 := by
  have := samples_cases o.bwl
  have := samples_cases o.bhl
  unfold side width height
  omega

@[simp] theorem mem_positions {o : Operands} {p : Nat × Nat} :
    p ∈ positions o ↔ p.1 < height o ∧ p.2 < width o := by
  have := width_bounds o
  have := height_bounds o
  simp only [positions, List.mem_flatMap, List.mem_map, mem_upTo]
  constructor
  · rintro ⟨r, hr, c, hc, rfl⟩
    exact ⟨by omega, by omega⟩
  · rintro ⟨h1, h2⟩
    exact ⟨p.1, by omega, p.2, by omega, rfl⟩

theorem mem_writeSet {o : Operands} {a : Word} :
    a ∈ writeSet o ↔ ∃ r c : Nat, r < height o ∧ c < width o ∧ destAddr o r c = a := by
  simp only [writeSet, List.mem_map, mem_positions, Prod.exists]
  grind

/-- A loop of writes of one value per key, `g k` at key `k`, under an invariant of the loop. -/
theorem foldl_writes {S ι κ V : Type} [DecidableEq κ] (f : S → ι → S) (get : S → κ → V)
    (pos : ι → κ) (g : κ → V) (K : κ → Prop) (P : S → Prop) (l : List ι)
    (hP : ∀ s i, i ∈ l → P s → P (f s i))
    (h : ∀ s i k, i ∈ l → P s → K k → get (f s i) k = if pos i = k then g k else get s k)
    (s : S) (hs : P s) (k : κ) (hk : K k) :
    get (l.foldl f s) k = if k ∈ l.map pos then g k else get s k := by
  induction l generalizing s with
  | nil => simp
  | cons i l ih =>
    rw [List.foldl_cons, ih (fun s j hj => hP s j (by simp [hj]))
      (fun s j k hj => h s j k (by simp [hj])) _ (hP s i (by simp) hs),
      h s i k (by simp) hs hk]
    grind

/-- A loop that leaves a component alone leaves it alone. -/
theorem foldl_keeps {S ι V : Type} (get : S → V) (f : S → ι → S)
    (h : ∀ s i, get (f s i) = get s) (l : List ι) (s : S) : get (l.foldl f s) = get s := by
  induction l generalizing s with
  | nil => rfl
  | cons i l ih => rw [List.foldl_cons, ih, h]

/-! The builder. -/

theorem leftAt_buildLeft (o : Operands) (m : Memory) (sc : Scratch) {j : Nat} (hj : j < 64) :
    (buildLeft o m sc).leftAt j =
      if j < height o then (if o.left then m.read (leftAddr o j) else 129) else sc.leftAt j := by
  have hb := height_bounds o
  unfold buildLeft
  rw [foldl_writes _ Scratch.leftAt id (fun r => if o.left then m.read (leftAddr o r) else 129)
    (· < 64) (fun _ => True) _ (fun _ _ _ _ => trivial)
    (fun s i k _ _ hk => by simp only [id]; rw [leftAt_setLeft _ _ _ _ hk]; split <;> simp_all)
    _ trivial _ hj]
  simp only [List.map_id, mem_upTo]
  grind

theorem aboveAt_buildAbove (o : Operands) (m : Memory) (sc : Scratch) {j : Int} (hj : -1 ≤ j)
    (hj' : j < 64) :
    (buildAbove o m sc).aboveAt j =
      if 0 ≤ j ∧ j < width o then (if o.up then m.read (aboveAddr o j.toNat) else 127)
      else sc.aboveAt j := by
  have hb := width_bounds o
  unfold buildAbove
  rw [foldl_writes _ Scratch.aboveAt (fun c : Nat => (c : Int))
    (fun j => if o.up then m.read (aboveAddr o j.toNat) else 127)
    (fun j => -1 ≤ j ∧ j < 64) (fun _ => True) _ (fun _ _ _ _ => trivial)
    (fun s i k _ _ hk => by
      rw [aboveAt_setAbove _ _ _ _ (by omega) hk.1 hk.2]; split
      · subst_vars; simp
      · rfl)
    _ trivial _ ⟨hj, hj'⟩]
  have hm : j ∈ (upTo 0 (width o - 1)).map (fun c : Nat => (c : Int)) ↔ 0 ≤ j ∧ j < width o := by
    simp only [List.mem_map, mem_upTo]
    exact ⟨fun ⟨c, hc, e⟩ => by omega, fun h => ⟨j.toNat, by omega, by omega⟩⟩
  simp only [hm]

@[simp] theorem buildLeft_above (o : Operands) (m : Memory) (sc : Scratch) :
    (buildLeft o m sc).above = sc.above := by
  unfold buildLeft
  exact foldl_keeps Scratch.above _ (by intros; rfl) ..
@[simp] theorem buildLeft_sq (o : Operands) (m : Memory) (sc : Scratch) :
    (buildLeft o m sc).sq = sc.sq := by
  unfold buildLeft
  exact foldl_keeps Scratch.sq _ (by intros; rfl) ..
@[simp] theorem buildLeft_ib (o : Operands) (m : Memory) (sc : Scratch) :
    (buildLeft o m sc).ib = sc.ib := by
  unfold buildLeft
  exact foldl_keeps Scratch.ib _ (by intros; rfl) ..
@[simp] theorem buildAbove_left (o : Operands) (m : Memory) (sc : Scratch) :
    (buildAbove o m sc).left = sc.left := by
  unfold buildAbove
  exact foldl_keeps Scratch.left _ (by intros; rfl) ..
@[simp] theorem buildAbove_sq (o : Operands) (m : Memory) (sc : Scratch) :
    (buildAbove o m sc).sq = sc.sq := by
  unfold buildAbove
  exact foldl_keeps Scratch.sq _ (by intros; rfl) ..
@[simp] theorem buildAbove_ib (o : Operands) (m : Memory) (sc : Scratch) :
    (buildAbove o m sc).ib = sc.ib := by
  unfold buildAbove
  exact foldl_keeps Scratch.ib _ (by intros; rfl) ..
@[simp] theorem buildContext_sq (o : Operands) (m : Memory) (sc : Scratch) :
    (buildContext o m sc).sq = sc.sq := by simp [buildContext, buildCorner]
@[simp] theorem buildContext_ib (o : Operands) (m : Memory) (sc : Scratch) :
    (buildContext o m sc).ib = sc.ib := by simp [buildContext, buildCorner]

/-- The left column after the builder. -/
theorem leftAt_buildContext (o : Operands) (m : Memory) (sc : Scratch) {j : Nat} (hj : j < 64) :
    (buildContext o m sc).leftAt j =
      if j < height o then (if o.left then m.read (leftAddr o j) else 129) else sc.leftAt j := by
  have h : (buildContext o m sc).leftAt j = (buildLeft o m sc).leftAt j := by
    simp [buildContext, buildCorner, Scratch.leftAt]
  rw [h, leftAt_buildLeft o m sc hj]

/-- The corner and the row above after the builder. -/
theorem aboveAt_buildContext (o : Operands) (m : Memory) (sc : Scratch) {j : Int} (hj : -1 ≤ j)
    (hj' : j < 64) :
    (buildContext o m sc).aboveAt j =
      if j = -1 then (if o.up && o.left then m.read (cornerAddr o) else 127)
      else if j < width o then (if o.up then m.read (aboveAddr o j.toNat) else 127)
      else sc.aboveAt j := by
  have h : (buildLeft o m sc).aboveAt j = sc.aboveAt j := by simp [Scratch.aboveAt]
  unfold buildContext buildCorner
  rw [aboveAt_setAbove _ _ _ _ (by omega) hj hj', aboveAt_buildAbove _ _ _ hj hj', h]
  grind

/-! The adapter. -/

@[simp] theorem adapt_sq (o : Operands) (sc : Scratch) : (adapt o sc).sq = sc.sq := by
  unfold adapt
  simp only
  split
  · exact foldl_keeps Scratch.sq _ (by intros; rfl) ..
  · split
    · exact foldl_keeps Scratch.sq _ (by intros; rfl) ..
    · rfl

@[simp] theorem adapt_ib (o : Operands) (sc : Scratch) : (adapt o sc).ib = sc.ib := by
  unfold adapt
  simp only
  split
  · exact foldl_keeps Scratch.ib _ (by intros; rfl) ..
  · split
    · exact foldl_keeps Scratch.ib _ (by intros; rfl) ..
    · rfl

theorem leftAt_adapt (o : Operands) (sc : Scratch) {j : Nat} (hj : j < 64) :
    (adapt o sc).leftAt j =
      if j < side o then sc.leftAt (min j (height o - 1)) else sc.leftAt j := by
  have hb := height_bounds o
  have hs := side_bounds o
  unfold adapt
  simp only
  split
  · rw [foldl_writes _ Scratch.leftAt id (fun _ => sc.leftAt (height o - 1)) (· < 64)
      (fun s => s.leftAt (height o - 1) = sc.leftAt (height o - 1)) _
      (fun s i hi hs => by
        rw [mem_upTo] at hi
        rw [leftAt_setLeft _ _ _ _ (by omega), if_neg (by omega), hs])
      (fun s i k _ hs hk => by simp only [id]; rw [leftAt_setLeft _ _ _ _ hk, hs])
      _ rfl _ hj]
    simp only [List.map_id, mem_upTo]
    by_cases h : j < height o
    · rw [if_neg (by omega), if_pos (by omega), show min j (height o - 1) = j by omega]
    · by_cases h' : j < side o
      · rw [if_pos (by omega), if_pos h', show min j (height o - 1) = height o - 1 by omega]
      · rw [if_neg (by omega), if_neg h']
  · have hle : side o = height o := by unfold side; omega
    have : min j (height o - 1) = j ∨ ¬ j < side o := by omega
    split
    · have hk := foldl_keeps Scratch.left
        (fun (sc : Scratch) (i : Nat) => sc.setAbove i (sc.aboveAt ((width o : Int) - 1)))
        (fun _ _ => rfl) (upTo (width o) (side o - 1)) sc
      simp only [Scratch.leftAt, hk]
      grind
    · grind

theorem aboveAt_adapt (o : Operands) (sc : Scratch) {j : Int} (hj : -1 ≤ j) (hj' : j < 64) :
    (adapt o sc).aboveAt j =
      if j < side o then sc.aboveAt (min j ((width o : Int) - 1)) else sc.aboveAt j := by
  have hb := width_bounds o
  have hs := side_bounds o
  unfold adapt
  simp only
  split
  · have hk := foldl_keeps Scratch.above
      (fun (sc : Scratch) (i : Nat) => sc.setLeft i (sc.leftAt (height o - 1))) (fun _ _ => rfl) (upTo (height o) (side o - 1)) sc
    have hle : side o = width o := by unfold side; omega
    have : min j ((width o : Int) - 1) = j ∨ ¬ j < side o := by omega
    simp only [Scratch.aboveAt, hk]
    grind
  · split
    · rw [foldl_writes _ Scratch.aboveAt (fun c : Nat => (c : Int))
        (fun _ => sc.aboveAt ((width o : Int) - 1)) (fun j => -1 ≤ j ∧ j < 64)
        (fun s => s.aboveAt ((width o : Int) - 1) = sc.aboveAt ((width o : Int) - 1)) _
        (fun s i hi hs => by
          rw [mem_upTo] at hi
          rw [aboveAt_setAbove _ _ _ _ (by omega) (by omega) (by omega), if_neg (by omega), hs])
        (fun s i k _ hs hk => by rw [aboveAt_setAbove _ _ _ _ (by omega) hk.1 hk.2, hs])
        _ rfl _ ⟨hj, hj'⟩]
      have hm : j ∈ (upTo (width o) (side o - 1)).map (fun c : Nat => (c : Int)) ↔
          (width o : Int) ≤ j ∧ j < side o := by
        simp only [List.mem_map, mem_upTo]
        exact ⟨fun ⟨c, hc, e⟩ => by omega, fun h => ⟨j.toNat, by omega, by omega⟩⟩
      simp only [hm]
      by_cases h : j < width o
      · rw [if_neg (by omega), if_pos (by omega), show min j ((width o : Int) - 1) = j by omega]
      · by_cases h' : j < side o
        · rw [if_pos (by omega), if_pos h',
            show min j ((width o : Int) - 1) = (width o : Int) - 1 by omega]
        · rw [if_neg (by omega), if_neg h']
    · have hle : side o = width o := by unfold side; omega
      have : min j ((width o : Int) - 1) = j ∨ ¬ j < side o := by omega
      grind

/-! The inter block. -/

@[simp] theorem loadInter_above (o : Operands) (m : Memory) (sc : Scratch) :
    (loadInter o m sc).above = sc.above := by
  unfold loadInter
  exact foldl_keeps Scratch.above _ (by intros; rfl) ..
@[simp] theorem loadInter_left (o : Operands) (m : Memory) (sc : Scratch) :
    (loadInter o m sc).left = sc.left := by
  unfold loadInter
  exact foldl_keeps Scratch.left _ (by intros; rfl) ..
@[simp] theorem loadInter_sq (o : Operands) (m : Memory) (sc : Scratch) :
    (loadInter o m sc).sq = sc.sq := by
  unfold loadInter
  exact foldl_keeps Scratch.sq _ (by intros; rfl) ..
@[simp] theorem aboveAt_loadInter (o : Operands) (m : Memory) (sc : Scratch) (j : Int) :
    (loadInter o m sc).aboveAt j = sc.aboveAt j := by simp [Scratch.aboveAt]
@[simp] theorem leftAt_loadInter (o : Operands) (m : Memory) (sc : Scratch) (j : Nat) :
    (loadInter o m sc).leftAt j = sc.leftAt j := by simp [Scratch.leftAt]

/-- `IB` after the loading. -/
theorem ib_loadInter (o : Operands) (m : Memory) (sc : Scratch) {r c : Nat} (hr : r < 64)
    (hc : c < 64) :
    squareGet (loadInter o m sc).ib r c =
      if r < height o ∧ c < width o then m.read (destAddr o r c) else squareGet sc.ib r c := by
  unfold loadInter
  rw [foldl_writes _ (fun (s : Scratch) (p : Nat × Nat) => squareGet s.ib p.1 p.2) id
    (fun p => m.read (destAddr o p.1 p.2)) (fun p => p.1 < 64 ∧ p.2 < 64) (fun _ => True) _
    (fun _ _ _ _ => trivial)
    (fun s i k _ _ hk => by
      simp only [id, Scratch.setIb]
      rw [squareGet_squareSet _ _ _ _ _ _ hk.1 hk.2]
      by_cases e : i = k
      · simp [e]
      · rw [if_neg e, if_neg (fun h => e (Prod.ext h.1 h.2))])
    _ trivial (r, c) ⟨hr, hc⟩]
  simp

/-! The context a command predicts from. -/

/-- The left column after builder and adapter is `contextLeft`. -/
theorem leftAt_context (o : Operands) (m : Memory) (sc : Scratch) {j : Nat} (hj : j < side o) :
    ((adapt o (buildContext o m sc)).leftAt j).toNat = contextLeft o m j := by
  have hb := height_bounds o
  have hs := side_bounds o
  rw [leftAt_adapt _ _ (by omega), if_pos hj, leftAt_buildContext _ _ _ (by omega),
    if_pos (by omega)]
  unfold contextLeft leftAddr
  rw [show ((min j (height o - 1) : Nat) : Int) = min (j : Int) ((height o : Int) - 1) by omega]
  split <;> rfl

/-- The corner and the row above after builder and adapter are `contextAbove`. -/
theorem aboveAt_context (o : Operands) (m : Memory) (sc : Scratch) {j : Int} (hj : -1 ≤ j)
    (hj' : j < side o) :
    ((adapt o (buildContext o m sc)).aboveAt j).toNat = contextAbove o m j := by
  have hb := width_bounds o
  have hs := side_bounds o
  rw [aboveAt_adapt _ _ hj (by omega), if_pos hj', aboveAt_buildContext _ _ _ (by omega) (by omega)]
  unfold contextAbove cornerAddr aboveAddr
  simp only [Bool.and_eq_true]
  by_cases h : j = -1
  · rw [if_pos (by omega), if_pos h]
    split <;> rfl
  · rw [if_neg (by omega), if_neg h, if_pos (by omega),
      show (((min j ((width o : Int) - 1)).toNat : Nat) : Int) = min j ((width o : Int) - 1) by omega]
    split <;> rfl

/-- Inside the block the adapter changes nothing. -/
theorem leftAt_builder (o : Operands) (m : Memory) (sc : Scratch) {j : Nat} (hj : j < height o) :
    ((buildContext o m sc).leftAt j).toNat = contextLeft o m j := by
  have hb := height_bounds o
  have hs := side_bounds o
  rw [← leftAt_context o m sc (by omega), leftAt_adapt _ _ (by omega), if_pos (by omega),
    show min j (height o - 1) = j by omega]

theorem aboveAt_builder (o : Operands) (m : Memory) (sc : Scratch) {j : Int} (hj : -1 ≤ j)
    (hj' : j < width o) :
    ((buildContext o m sc).aboveAt j).toNat = contextAbove o m j := by
  have hb := width_bounds o
  have hs := side_bounds o
  rw [← aboveAt_context o m sc hj (by omega), aboveAt_adapt _ _ hj (by omega), if_pos (by omega),
    show min j ((width o : Int) - 1) = j by omega]

end Sys2Proof.Machine
end

