-- ==== Sys2Proof/Laws/Decode.lean ====
section
/-!
SUPPORT. What decoding answers, in one equivalence (`decode_ok`), and the bits of an encoded word.
-/

namespace Sys2Proof

theorem modeOfCode_some {k : Nat} {m : Mode} : modeOfCode k = some m ↔ m.code = k := by
  constructor
  · intro h
    unfold modeOfCode at h
    split at h <;> simp_all <;> subst h <;> rfl
  · rintro rfl
    cases m <;> rfl

theorem sizeOfCode_some {k : Nat} {c : SizeCode} : sizeOfCode k = some c ↔ c.code = k := by
  constructor
  · intro h
    unfold sizeOfCode at h
    split at h <;> simp_all <;> subst h <;> rfl
  · rintro rfl
    cases c <;> rfl

@[simp] theorem instrOf_mode (ii : Bool) (m : Mode) (o : Operands) : (instrOf ii m o).mode = m := by
  cases ii <;> cases m <;> rfl
@[simp] theorem instrOf_ii (ii : Bool) (m : Mode) (o : Operands) : (instrOf ii m o).ii = ii := by
  cases ii <;> cases m <;> rfl
@[simp] theorem instrOf_operands (ii : Bool) (m : Mode) (o : Operands) :
    (instrOf ii m o).operands = o := by
  cases ii <;> cases m <;> rfl
theorem instrOf_self (i : Instr) : instrOf i.ii i.mode i.operands = i := by
  cases i <;> rfl

/-- `decode` with its fields as quotients and remainders of word 0. -/
theorem decode_eq (d : Descriptor) : decode d =
    if d.cmd.toNat / 2 ^ 14 ≠ 0 then .error .reservedBits
    else
      match modeOfCode (d.cmd.toNat % 16) with
      | none => .error .illegalMode
      | some m =>
        match sizeOfCode (d.cmd.toNat / 2 ^ 4 % 8), sizeOfCode (d.cmd.toNat / 2 ^ 7 % 8) with
        | some bwl, some bhl =>
          if legalShape bwl bhl then .ok (instrOf (bitAt d.cmd 13) m (operandsOf d bwl bhl))
          else .error .illegalSize
        | _, _ => .error .illegalSize := by
  have h1 : field d.cmd 31 14 = d.cmd.toNat / 2 ^ 14 := by
    have := d.cmd.isLt
    simp only [field]
    omega
  have h2 : field d.cmd 3 0 = d.cmd.toNat % 16 := by simp [field]
  have h3 : field d.cmd 6 4 = d.cmd.toNat / 2 ^ 4 % 8 := by simp [field]
  have h4 : field d.cmd 9 7 = d.cmd.toNat / 2 ^ 7 % 8 := by simp [field]
  unfold decode
  exact h1 ▸ h2 ▸ h3 ▸ h4 ▸ rfl

/-- When a descriptor decodes, and to what. -/
theorem decode_ok {d : Descriptor} {i : Instr} : decode d = .ok i ↔
    d.cmd.toNat / 2 ^ 14 = 0 ∧ i.wellFormed = true ∧ i.mode.code = d.cmd.toNat % 16 ∧
      i.operands.bwl.code = d.cmd.toNat / 2 ^ 4 % 8 ∧ i.operands.bhl.code = d.cmd.toNat / 2 ^ 7 % 8 ∧
      i = instrOf (bitAt d.cmd 13) i.mode (operandsOf d i.operands.bwl i.operands.bhl) := by
  rw [decode_eq, Instr.wellFormed]
  constructor
  · intro h
    split at h
    · cases h
    rename_i h0
    split at h
    · cases h
    rename_i m hm
    split at h
    · rename_i bwl bhl h1 h2
      split at h
      · rename_i hl
        cases h
        rw [instrOf_operands, instrOf_mode]
        exact ⟨by simpa using h0, hl, modeOfCode_some.mp hm, sizeOfCode_some.mp h1,
          sizeOfCode_some.mp h2, rfl⟩
      · cases h
    · cases h
  · rintro ⟨h0, hl, hm, h1, h2, h3⟩
    rw [if_neg (by simpa using h0), modeOfCode_some.mpr hm, sizeOfCode_some.mpr h1,
      sizeOfCode_some.mpr h2]
    simp only [hl, if_true]
    rw [← h3]

theorem bitAt_iff (w : Word) (b : Nat) : bitAt w b = true ↔ w.toNat / 2 ^ b % 2 = 1 := by
  simp [bitAt, field]

theorem bitAt_toNat (w : Word) (b : Nat) : (bitAt w b).toNat = w.toNat / 2 ^ b % 2 := by
  have := bitAt_iff w b
  cases h : bitAt w b <;> simp [h] at this ⊢ <;> omega

/-- No carry crosses a field of an encoded word. -/
theorem encodeCmd_toNat (i : Instr) :
    (encodeCmd i).toNat = i.mode.code + i.operands.bwl.code * 2 ^ 4 + i.operands.bhl.code * 2 ^ 7
        + i.operands.up.toNat * 2 ^ 10 + i.operands.left.toNat * 2 ^ 11
        + i.operands.right.toNat * 2 ^ 12 + i.ii.toNat * 2 ^ 13
      ∧ i.mode.code < 10 ∧ i.operands.bwl.code < 5 ∧ i.operands.bhl.code < 5 := by
  have h1 : i.mode.code < 10 := by cases i.mode <;> decide
  have h2 : ∀ c : SizeCode, c.code < 5 := by
    intro c
    cases c <;> decide
  have := h2 i.operands.bwl
  have := h2 i.operands.bhl
  have := i.operands.up.toNat_le
  have := i.operands.left.toNat_le
  have := i.operands.right.toNat_le
  have := i.ii.toNat_le
  refine ⟨?_, by omega, by omega, by omega⟩
  rw [encodeCmd, BitVec.toNat_ofNat]
  omega

end Sys2Proof
end

