-- ==== Sys2Proof/Laws/Kernel.lean ====
section
/-!
SUPPORT. What a directional kernel computes. A kernel that writes each cell once and reads only cells it has
written leaves an array in which every cell satisfies its own assignment (`runKernel_cell`), whatever
the scratch arrays held before (`runKernel_agree`). The schedule of the six kernels is checked for the
five sizes by computation on a bit mask of the cells written so far.
-/

namespace Sys2Proof.Machine

/-- The bit that stands for cell `r`, `c`. -/
def cellBit (r c : Nat) : Nat := 64 * r + c

/-- Every index a right-hand side reads lies in the context of side `n`, every cell it reads has its bit in
`mask`, and every weighted average has the table index of its weight sum. -/
def CellExpr.sound (n mask : Nat) : CellExpr → Bool
  | .above i => decide (-1 ≤ i) && decide (i < n)
  | .left i => decide (i < n)
  | .cell r c => decide (r < n) && decide (c < n) && mask.testBit (cellBit r c)
  | .avg a b => a.sound n mask && b.sound n mask
  | .weighted wa a wb b i =>
    a.sound n mask && b.sound n mask && decide (i < 64) && decide (wa + wb = i + 2)

/-- The assignments stay in the square of side `n`, write no cell of `mask` or twice, and read no cell before
it is written. -/
def scheduled (n : Nat) : Nat → List CellWrite → Bool
  | _, [] => true
  | mask, w :: k =>
    decide (w.row < n) && decide (w.col < n) && !mask.testBit (cellBit w.row w.col)
      && w.value.sound n mask && scheduled n (mask ||| 1 <<< cellBit w.row w.col) k

theorem scheduled_cons {n mask : Nat} {w : CellWrite} {k : List CellWrite} :
    scheduled n mask (w :: k) = true ↔
      w.row < n ∧ w.col < n ∧ mask.testBit (cellBit w.row w.col) = false ∧
        w.value.sound n mask = true ∧ scheduled n (mask ||| 1 <<< cellBit w.row w.col) k = true := by
  simp [scheduled, and_assoc]

theorem testBit_mark (mask b q : Nat) :
    (mask ||| 1 <<< b).testBit q = (mask.testBit q || decide (b = q)) := by
  rw [Nat.testBit_or, Nat.one_shiftLeft, Nat.testBit_two_pow]

theorem cellBit_inj {r c r' c' : Nat} (hc : c < 64) (hc' : c' < 64)
    (h : cellBit r c = cellBit r' c') : r = r' ∧ c = c' := by
  unfold cellBit at h
  omega

/-! The schedules of the six kernels. The option makes Lean check them one after the other: side by side they take
twice the time. -/

set_option Elab.async false

theorem scheduled_d45 : ∀ n ∈ [4, 8, 16, 32, 64], scheduled n 0 (kernelD45 n) = true := by
  decide +kernel

theorem scheduled_d135 : ∀ n ∈ [4, 8, 16, 32, 64], scheduled n 0 (kernelD135 n) = true := by
  decide +kernel

theorem scheduled_d117 : ∀ n ∈ [4, 8, 16, 32, 64], scheduled n 0 (kernelD117 n) = true := by
  decide +kernel

theorem scheduled_d153 : ∀ n ∈ [4, 8, 16, 32, 64], scheduled n 0 (kernelD153 n) = true := by
  decide +kernel

theorem scheduled_d27 : ∀ n ∈ [4, 8, 16, 32, 64], scheduled n 0 (kernelD27 n) = true := by
  decide +kernel

theorem scheduled_d63 : ∀ n ∈ [4, 8, 16, 32, 64], scheduled n 0 (kernelD63 n) = true := by
  decide +kernel

/-- The sides a kernel runs on. -/
abbrev legalSide (n : Nat) : Prop := n ∈ [4, 8, 16, 32, 64]

theorem legalSide_side (o : Operands) : legalSide (side o) := by
  simpa [legalSide] using side_cases o

theorem legalSide_facts {n : Nat} (h : legalSide n) : 4 ≤ n ∧ n ≤ 64 ∧ n % 4 = 0 := by
  simp only [legalSide, List.mem_cons, List.not_mem_nil, or_false] at h
  omega

/-- Every kernel is scheduled. -/
theorem scheduled_kernelOf (m : Mode) {n : Nat} (h : legalSide n) :
    scheduled n 0 (kernelOf m n) = true := by
  cases m
  case d45 => exact scheduled_d45 _ h
  case d135 => exact scheduled_d135 _ h
  case d117 => exact scheduled_d117 _ h
  case d153 => exact scheduled_d153 _ h
  case d27 => exact scheduled_d27 _ h
  case d63 => exact scheduled_d63 _ h
  all_goals rfl

/-! Evaluation of right-hand sides. -/

/-- A sound right-hand side has the same value in two scratch arrays that agree on the context and on the
cells written so far. -/
theorem CellExpr.eval_congr {n mask : Nat} {s t : Scratch}
    (ha : ∀ j : Int, -1 ≤ j → j < n → s.aboveAt j = t.aboveAt j)
    (hl : ∀ j, j < n → s.leftAt j = t.leftAt j)
    (hc : ∀ r c, r < n → c < n → mask.testBit (cellBit r c) = true →
      squareGet s.sq r c = squareGet t.sq r c)
    (e : CellExpr) (he : e.sound n mask = true) : e.eval s = e.eval t := by
  induction e with
  | above i =>
    simp only [CellExpr.sound, Bool.and_eq_true, decide_eq_true_eq] at he
    simp only [CellExpr.eval, ha i he.1 he.2]
  | left i =>
    simp only [CellExpr.sound, decide_eq_true_eq] at he
    simp only [CellExpr.eval, hl i he]
  | cell r c =>
    simp only [CellExpr.sound, Bool.and_eq_true, decide_eq_true_eq] at he
    simp only [CellExpr.eval, hc r c he.1.1 he.1.2 he.2]
  | avg a b iha ihb =>
    simp only [CellExpr.sound, Bool.and_eq_true] at he
    simp only [CellExpr.eval, iha he.1, ihb he.2]
  | weighted wa a wb b i iha ihb =>
    simp only [CellExpr.sound, Bool.and_eq_true] at he
    simp only [CellExpr.eval, iha he.1.1.1, ihb he.1.1.2]

/-- The value of a sound right-hand side is a sample (R127). -/
theorem CellExpr.eval_le {n mask : Nat} (s : Scratch) (e : CellExpr)
    (he : e.sound n mask = true) : e.eval s ≤ 255 := by
  induction e with
  | above i => exact sample_le _
  | left i => exact sample_le _
  | cell r c => exact sample_le _
  | avg a b iha ihb =>
    simp only [CellExpr.sound, Bool.and_eq_true] at he
    exact avg2_le (iha he.1) (ihb he.2)
  | weighted wa a wb b i iha ihb =>
    simp only [CellExpr.sound, Bool.and_eq_true, decide_eq_true_eq] at he
    exact weighted_le he.1.2 he.2 (iha he.1.1.1) (ihb he.1.1.2)

theorem CellExpr.sound_mono {n mask mask' : Nat}
    (h : ∀ b, mask.testBit b = true → mask'.testBit b = true) (e : CellExpr)
    (he : e.sound n mask = true) : e.sound n mask' = true := by
  induction e with
  | above i => exact he
  | left i => exact he
  | cell r c =>
    simp only [CellExpr.sound, Bool.and_eq_true, decide_eq_true_eq] at he ⊢
    exact ⟨he.1, h _ he.2⟩
  | avg a b iha ihb =>
    simp only [CellExpr.sound, Bool.and_eq_true] at he ⊢
    exact ⟨iha he.1, ihb he.2⟩
  | weighted wa a wb b i iha ihb =>
    simp only [CellExpr.sound, Bool.and_eq_true] at he ⊢
    exact ⟨⟨⟨iha he.1.1.1, ihb he.1.1.2⟩, he.1.2⟩, he.2⟩

/-! Running a kernel. -/

@[simp] theorem runWrite_above (s : Scratch) (w : CellWrite) : (runWrite s w).above = s.above := rfl
@[simp] theorem runWrite_left (s : Scratch) (w : CellWrite) : (runWrite s w).left = s.left := rfl
@[simp] theorem runWrite_ib (s : Scratch) (w : CellWrite) : (runWrite s w).ib = s.ib := rfl

@[simp] theorem runKernel_above (k : List CellWrite) (s : Scratch) :
    (runKernel k s).above = s.above := foldl_keeps Scratch.above _ (by intros; rfl) ..
@[simp] theorem runKernel_left (k : List CellWrite) (s : Scratch) :
    (runKernel k s).left = s.left := foldl_keeps Scratch.left _ (by intros; rfl) ..
@[simp] theorem runKernel_ib (k : List CellWrite) (s : Scratch) :
    (runKernel k s).ib = s.ib := foldl_keeps Scratch.ib _ (by intros; rfl) ..
@[simp] theorem aboveAt_runKernel (k : List CellWrite) (s : Scratch) (j : Int) :
    (runKernel k s).aboveAt j = s.aboveAt j := by simp [Scratch.aboveAt]
@[simp] theorem leftAt_runKernel (k : List CellWrite) (s : Scratch) (j : Nat) :
    (runKernel k s).leftAt j = s.leftAt j := by simp [Scratch.leftAt]

theorem squareGet_runWrite (s : Scratch) (w : CellWrite) {r c : Nat} (hr : r < 64) (hc : c < 64) :
    squareGet (runWrite s w).sq r c =
      if w.row = r ∧ w.col = c then toSample (w.value.eval s) else squareGet s.sq r c :=
  squareGet_squareSet _ _ _ _ _ _ hr hc

/-- A scheduled kernel leaves the cells of its mask alone. -/
theorem runKernel_keeps {n : Nat} (hn : n ≤ 64) (k : List CellWrite) {mask : Nat} (s : Scratch)
    (hk : scheduled n mask k = true) {r c : Nat} (hr : r < n) (hc : c < n)
    (hm : mask.testBit (cellBit r c) = true) :
    squareGet (runKernel k s).sq r c = squareGet s.sq r c := by
  induction k generalizing mask s with
  | nil => rfl
  | cons w k ih =>
    obtain ⟨h1, h2, h3, -, h5⟩ := scheduled_cons.mp hk
    have hne : ¬ (w.row = r ∧ w.col = c) := by
      rintro ⟨rfl, rfl⟩
      simp [h3] at hm
    change squareGet (runKernel k (runWrite s w)).sq r c = _
    rw [ih (runWrite s w) h5 (by rw [testBit_mark, hm]; rfl),
      squareGet_runWrite _ _ (by omega) (by omega), if_neg hne]

/-- In the array a scheduled kernel leaves, every cell it writes has the value of its right-hand side in that
same array. -/
theorem runKernel_cell_from {n : Nat} (hn : n ≤ 64) (k : List CellWrite) {mask : Nat} (s : Scratch)
    (hk : scheduled n mask k = true) {w : CellWrite} (hw : w ∈ k) :
    (squareGet (runKernel k s).sq w.row w.col).toNat = w.value.eval (runKernel k s) := by
  induction k generalizing mask s with
  | nil => cases hw
  | cons v k ih =>
    obtain ⟨h1, h2, h3, h4, h5⟩ := scheduled_cons.mp hk
    rcases List.mem_cons.mp hw with rfl | hw
    · have hb : (mask ||| 1 <<< cellBit w.row w.col).testBit (cellBit w.row w.col) = true := by
        rw [testBit_mark]
        simp
      have hcell : squareGet (runKernel (w :: k) s).sq w.row w.col = toSample (w.value.eval s) := by
        change squareGet (runKernel k (runWrite s w)).sq w.row w.col = _
        rw [runKernel_keeps hn k _ h5 h1 h2 hb, squareGet_runWrite _ _ (by omega) (by omega),
          if_pos ⟨rfl, rfl⟩]
      rw [hcell, toSample_toNat (CellExpr.eval_le s _ h4)]
      refine CellExpr.eval_congr (fun j _ _ => ?_) (fun j _ => ?_) (fun r c hr hc hm => ?_) _ h4
      · rw [aboveAt_runKernel]
      · rw [leftAt_runKernel]
      · exact (runKernel_keeps hn (w :: k) s hk hr hc hm).symm
    · exact ih (runWrite s v) h5 hw

/-- Two runs of a scheduled kernel from scratch arrays that agree on the context agree on the cells written. -/
theorem runKernel_agree_from {n : Nat} (hn : n ≤ 64) (k : List CellWrite) {mask : Nat}
    (s t : Scratch) (hk : scheduled n mask k = true)
    (ha : ∀ j : Int, -1 ≤ j → j < n → s.aboveAt j = t.aboveAt j)
    (hl : ∀ j, j < n → s.leftAt j = t.leftAt j)
    (hc : ∀ r c, r < n → c < n → mask.testBit (cellBit r c) = true →
      squareGet s.sq r c = squareGet t.sq r c)
    {r c : Nat} (hr : r < n) (hc' : c < n)
    (h : mask.testBit (cellBit r c) = true ∨ ∃ w ∈ k, w.row = r ∧ w.col = c) :
    squareGet (runKernel k s).sq r c = squareGet (runKernel k t).sq r c := by
  induction k generalizing mask s t with
  | nil =>
    rcases h with h | ⟨w, hw, -⟩
    · exact hc r c hr hc' h
    · cases hw
  | cons v k ih =>
    obtain ⟨h1, h2, h3, h4, h5⟩ := scheduled_cons.mp hk
    have he := CellExpr.eval_congr ha hl hc v.value h4
    refine ih (runWrite s v) (runWrite t v) h5 ha hl (fun r c hr hcn hm => ?_) ?_
    · rw [squareGet_runWrite _ _ (by omega) (by omega), squareGet_runWrite _ _ (by omega) (by omega),
        he]
      split
      · rfl
      · rename_i hne
        rw [testBit_mark] at hm
        rcases Bool.or_eq_true_iff.mp hm with hm | hm
        · exact hc r c hr hcn hm
        · exact absurd (cellBit_inj (by omega) (by omega) (of_decide_eq_true hm)) hne
    · rw [testBit_mark]
      rcases h with h | ⟨w, hw, e⟩
      · exact .inl (by rw [h]; rfl)
      · rcases List.mem_cons.mp hw with rfl | hw
        · exact .inl (by rw [← e.1, ← e.2]; simp)
        · exact .inr ⟨w, hw, e⟩

/-- The result of a kernel, cell by cell (`runKernel_cell_from` for the kernel of a command). -/
theorem runKernel_cell (m : Mode) (o : Operands) (s : Scratch) {w : CellWrite}
    (hw : w ∈ kernelOf m (side o)) :
    (squareGet (runKernel (kernelOf m (side o)) s).sq w.row w.col).toNat =
      w.value.eval (runKernel (kernelOf m (side o)) s) :=
  runKernel_cell_from (side_bounds o).2.2.2 _ s (scheduled_kernelOf m (legalSide_side o)) hw

end Sys2Proof.Machine
end

