-- ==== Sys2Proof/Laws/Recurrence.lean ====
section
/-!
SUPPORT. The six kernels satisfy the equations of Safety.lean: what the loops of
42_directional_predictors.md R173 to R178 leave in `SQ`, as recurrences and closed forms.
-/

namespace Sys2Proof.Machine

theorem mean2_avg2 (a b : Nat) : mean2 a b = avg2 a b := (avg2_eq a b).symm

theorem scaled_iscaleRound (v i : Nat) : scaled v i = iscaleRound v i := (iscaleRound_eq v i).symm

/-- A membership in a kernel is a value of a cell. -/
theorem cell_of_mem {n : Nat} (hn : n ≤ 64) {k : List CellWrite} (hk : scheduled n 0 k = true)
    (s : Scratch) {r c : Nat} {e : CellExpr} (h : (⟨r, c, e⟩ : CellWrite) ∈ k) :
    (squareGet (runKernel k s).sq r c).toNat = e.eval (runKernel k s) :=
  runKernel_cell_from hn k s hk h

section
variable {n : Nat} (h : legalSide n) (s : Scratch) {A : Int → Nat} {L : Nat → Nat}
  (hA : ∀ j : Int, -1 ≤ j → j < n → (s.aboveAt j).toNat = A j)
  (hL : ∀ j : Nat, j < n → (s.leftAt j).toNat = L j)
include h hA hL

theorem isD45_kernel :
    IsD45 n A L fun r c => (squareGet (runKernel (kernelD45 n) s).sq r c).toNat := by
  have hn := legalSide_facts h
  have hk := scheduled_d45 n h
  refine ⟨fun r c hd => ?_, fun r c hd => ?_, fun r c hr hc hd => ?_⟩
  · have hm : (⟨r + c - c, c, .weighted (c + 1) (.above ((r + c : Nat) + 1)) (r + c - c + 1)
        (.left (r + c + 1)) (r + c)⟩ : CellWrite) ∈ kernelD45 n := by
      simp only [kernelD45, List.mem_append, List.mem_flatMap, List.mem_map, mem_upTo]
      exact .inl (.inl ⟨r + c, by omega, c, by omega, rfl⟩)
    rw [Nat.add_sub_cancel] at hm
    have := cell_of_mem hn.2.1 hk s hm
    simp only [CellExpr.eval, aboveAt_runKernel, leftAt_runKernel] at this
    rw [this, hA _ (by omega) (by omega), hL _ (by omega), scaled_iscaleRound, Nat.mul_comm (A _),
      Nat.mul_comm (L _)]
    push_cast
    rfl
  · have hm : (⟨n - 1 - c, c, .weighted (c + 1) (.above ((n : Int) - 1)) (n - 1 - c + 1)
        (.left (n - 1)) (n - 1)⟩ : CellWrite) ∈ kernelD45 n := by
      simp only [kernelD45, List.mem_append, List.mem_flatMap, List.mem_map, mem_upTo]
      exact .inl (.inr ⟨c, by omega, rfl⟩)
    rw [show n - 1 - c = r by omega] at hm
    have := cell_of_mem hn.2.1 hk s hm
    simp only [CellExpr.eval, aboveAt_runKernel, leftAt_runKernel] at this
    rw [this, hA _ (by omega) (by omega), hL _ (by omega), scaled_iscaleRound, Nat.mul_comm (A _),
      Nat.mul_comm (L _)]
  · have hm : (⟨r, c, .avg (.cell (r - 1) c) (.cell r (c - 1))⟩ : CellWrite) ∈ kernelD45 n := by
      simp only [kernelD45, List.mem_append, List.mem_flatMap, List.mem_map, mem_upTo]
      exact .inr ⟨r, by omega, c, by omega, rfl⟩
    rw [mean2_avg2]
    exact cell_of_mem hn.2.1 hk s hm

theorem isD135_kernel :
    IsD135 n A L fun r c => (squareGet (runKernel (kernelD135 n) s).sq r c).toNat := by
  have hn := legalSide_facts h
  have hk := scheduled_d135 n h
  have first : ∀ c : Nat, c < n →
      (squareGet (runKernel (kernelD135 n) s).sq 0 c).toNat = A ((c : Int) - 1) := by
    intro c hc
    have hm : (⟨0, c, .above ((c : Int) - 1)⟩ : CellWrite) ∈ kernelD135 n := by
      simp only [kernelD135, List.mem_append, List.mem_map, mem_upTo]
      exact .inl (.inl ⟨c, by omega, rfl⟩)
    rw [cell_of_mem hn.2.1 hk s hm, CellExpr.eval, aboveAt_runKernel, hA _ (by omega) (by omega)]
  have column : ∀ r : Nat, 0 < r → r < n →
      (squareGet (runKernel (kernelD135 n) s).sq r 0).toNat = L (r - 1) := by
    intro r h0 hr
    have hm : (⟨r, 0, .left (r - 1)⟩ : CellWrite) ∈ kernelD135 n := by
      simp only [kernelD135, List.mem_append, List.mem_map, mem_upTo]
      exact .inl (.inr ⟨r, by omega, rfl⟩)
    rw [cell_of_mem hn.2.1 hk s hm, CellExpr.eval, leftAt_runKernel, hL _ (by omega)]
  have diagonal : ∀ r c : Nat, r + 1 < n → c + 1 < n →
      squareGet (runKernel (kernelD135 n) s).sq (r + 1) (c + 1) =
        squareGet (runKernel (kernelD135 n) s).sq r c := by
    intro r c hr hc
    have hm : (⟨r + 1, c + 1, .cell (r + 1 - 1) (c + 1 - 1)⟩ : CellWrite) ∈ kernelD135 n := by
      simp only [kernelD135, List.mem_append, List.mem_flatMap, List.mem_map, mem_upTo]
      exact .inr ⟨r + 1, by omega, c + 1, by omega, rfl⟩
    exact BitVec.toNat_inj.mp (cell_of_mem hn.2.1 hk s hm)
  refine ⟨fun r c hrc hc => ?_, fun r c hrc hr => ?_⟩
  · induction r generalizing c with
    | zero => simpa using first c hc
    | succ r ih =>
      obtain ⟨c, rfl⟩ : ∃ c', c = c' + 1 := ⟨c - 1, by omega⟩
      have := ih c (by omega) (by omega)
      rw [diagonal r c (by omega) hc, this]
      congr 1
      omega
  · induction c generalizing r with
    | zero => simpa using column r hrc hr
    | succ c ih =>
      obtain ⟨r, rfl⟩ : ∃ r', r = r' + 1 := ⟨r - 1, by omega⟩
      have := ih r (by omega) (by omega)
      rw [diagonal r c hr (by omega), this]
      congr 1
      omega

theorem isD117_kernel :
    IsD117 n A L fun r c => (squareGet (runKernel (kernelD117 n) s).sq r c).toNat := by
  have hn := legalSide_facts h
  have hk := scheduled_d117 n h
  have first : ∀ c : Nat, c < n →
      (squareGet (runKernel (kernelD117 n) s).sq 0 c).toNat = mean2 (A ((c : Int) - 1)) (A c) := by
    intro c hc
    have hm : (⟨0, c, .avg (.above ((c : Int) - 1)) (.above c)⟩ : CellWrite) ∈ kernelD117 n := by
      simp only [kernelD117, List.mem_append, List.mem_map, mem_upTo]
      exact .inl (.inl ⟨c, by omega, rfl⟩)
    rw [cell_of_mem hn.2.1 hk s hm]
    simp only [CellExpr.eval, aboveAt_runKernel]
    rw [hA _ (by omega) (by omega), hA _ (by omega) (by omega), mean2_avg2]
  have second : ∀ c : Nat, c < n →
      (squareGet (runKernel (kernelD117 n) s).sq 1 c).toNat = A ((c : Int) - 1) := by
    intro c hc
    have hm : (⟨1, c, .above ((c : Int) - 1)⟩ : CellWrite) ∈ kernelD117 n := by
      simp only [kernelD117, List.mem_append, List.mem_map, mem_upTo]
      exact .inl (.inr ⟨c, by omega, rfl⟩)
    rw [cell_of_mem hn.2.1 hk s hm, CellExpr.eval, aboveAt_runKernel, hA _ (by omega) (by omega)]
  have column : ∀ r : Nat, 2 ≤ r → r < n →
      (squareGet (runKernel (kernelD117 n) s).sq r 0).toNat = L (r - 2) := by
    intro r h0 hr
    have hm : (⟨r, 0, .left (r - 2)⟩ : CellWrite) ∈ kernelD117 n := by
      simp only [kernelD117, List.mem_append, List.mem_flatMap, List.mem_cons, List.mem_map, mem_upTo]
      exact .inr ⟨r, by omega, .inl rfl⟩
    rw [cell_of_mem hn.2.1 hk s hm, CellExpr.eval, leftAt_runKernel, hL _ (by omega)]
  have diagonal : ∀ r c : Nat, r + 2 < n → c + 1 < n →
      squareGet (runKernel (kernelD117 n) s).sq (r + 2) (c + 1) =
        squareGet (runKernel (kernelD117 n) s).sq r c := by
    intro r c hr hc
    have hm : (⟨r + 2, c + 1, .cell (r + 2 - 2) (c + 1 - 1)⟩ : CellWrite) ∈ kernelD117 n := by
      simp only [kernelD117, List.mem_append, List.mem_flatMap, List.mem_cons, List.mem_map, mem_upTo]
      exact .inr ⟨r + 2, by omega, .inr ⟨c + 1, by omega, rfl⟩⟩
    exact BitVec.toNat_inj.mp (cell_of_mem hn.2.1 hk s hm)
  refine ⟨fun r c k hrk hr hc hkc => ?_, fun r c k hrk hr hc hkc => ?_, fun r c hr hc hrc => ?_⟩
  · subst hrk
    induction k generalizing c with
    | zero => simpa using first c hc
    | succ k ih =>
      obtain ⟨c, rfl⟩ : ∃ c', c = c' + 1 := ⟨c - 1, by omega⟩
      rw [show 2 * (k + 1) = 2 * k + 2 by omega, diagonal _ c (by omega) hc,
        ih c (by omega) (by omega) (by omega)]
      congr 2 <;> omega
  · subst hrk
    induction k generalizing c with
    | zero => simpa using second c hc
    | succ k ih =>
      obtain ⟨c, rfl⟩ : ∃ c', c = c' + 1 := ⟨c - 1, by omega⟩
      rw [show 2 * (k + 1) + 1 = 2 * k + 1 + 2 by omega, diagonal _ c (by omega) hc,
        ih c (by omega) (by omega) (by omega)]
      congr 1
      omega
  · induction c generalizing r with
    | zero => simpa using column r (by omega) hr
    | succ c ih =>
      obtain ⟨r, rfl⟩ : ∃ r', r = r' + 2 := ⟨r - 2, by omega⟩
      rw [diagonal r c hr hc, ih r (by omega) (by omega) (by omega)]
      congr 1
      omega

theorem isD153_kernel :
    IsD153 n A L fun r c => (squareGet (runKernel (kernelD153 n) s).sq r c).toNat := by
  have hn := legalSide_facts h
  have hk := scheduled_d153 n h
  have corner : (squareGet (runKernel (kernelD153 n) s).sq 0 0).toNat = mean2 (A (-1)) (L 0) := by
    have hm : (⟨0, 0, .avg (.above (-1)) (.left 0)⟩ : CellWrite) ∈ kernelD153 n := by
      simp [kernelD153]
    rw [cell_of_mem hn.2.1 hk s hm]
    simp only [CellExpr.eval, aboveAt_runKernel, leftAt_runKernel]
    rw [hA _ (by omega) (by omega), hL _ (by omega), mean2_avg2]
  have first : ∀ r : Nat, 0 < r → r < n →
      (squareGet (runKernel (kernelD153 n) s).sq r 0).toNat = mean2 (L (r - 1)) (L r) := by
    intro r h0 hr
    have hm : (⟨r, 0, .avg (.left (r - 1)) (.left r)⟩ : CellWrite) ∈ kernelD153 n := by
      simp only [kernelD153, List.mem_append, List.mem_map, mem_upTo]
      exact .inl (.inl (.inl (.inl (.inr ⟨r, by omega, rfl⟩))))
    rw [cell_of_mem hn.2.1 hk s hm]
    simp only [CellExpr.eval, leftAt_runKernel]
    rw [hL _ (by omega), hL _ (by omega), mean2_avg2]
  have second0 : (squareGet (runKernel (kernelD153 n) s).sq 0 1).toNat = A (-1) := by
    have hm : (⟨0, 1, .above (-1)⟩ : CellWrite) ∈ kernelD153 n := by
      simp only [kernelD153, List.mem_append, List.mem_singleton]
      exact .inl (.inl (.inl (.inr trivial)))
    rw [cell_of_mem hn.2.1 hk s hm, CellExpr.eval, aboveAt_runKernel, hA _ (by omega) (by omega)]
  have second : ∀ r : Nat, 0 < r → r < n →
      (squareGet (runKernel (kernelD153 n) s).sq r 1).toNat = L (r - 1) := by
    intro r h0 hr
    have hm : (⟨r, 1, .left (r - 1)⟩ : CellWrite) ∈ kernelD153 n := by
      simp only [kernelD153, List.mem_append, List.mem_map, mem_upTo]
      exact .inl (.inl (.inr ⟨r, by omega, rfl⟩))
    rw [cell_of_mem hn.2.1 hk s hm, CellExpr.eval, leftAt_runKernel, hL _ (by omega)]
  have row : ∀ c : Nat, 2 ≤ c → c < n →
      (squareGet (runKernel (kernelD153 n) s).sq 0 c).toNat = A ((c : Int) - 2) := by
    intro c h0 hc
    have hm : (⟨0, c, .above ((c : Int) - 2)⟩ : CellWrite) ∈ kernelD153 n := by
      simp only [kernelD153, List.mem_append, List.mem_map, mem_upTo]
      exact .inl (.inr ⟨c, by omega, rfl⟩)
    rw [cell_of_mem hn.2.1 hk s hm, CellExpr.eval, aboveAt_runKernel, hA _ (by omega) (by omega)]
  have diagonal : ∀ r c : Nat, r + 1 < n → c + 2 < n →
      squareGet (runKernel (kernelD153 n) s).sq (r + 1) (c + 2) =
        squareGet (runKernel (kernelD153 n) s).sq r c := by
    intro r c hr hc
    have hm : (⟨r + 1, c + 2, .cell (r + 1 - 1) (c + 2 - 2)⟩ : CellWrite) ∈ kernelD153 n := by
      simp only [kernelD153, List.mem_append, List.mem_flatMap, List.mem_map, mem_upTo]
      exact .inr ⟨r + 1, by omega, c + 2, by omega, rfl⟩
    exact BitVec.toNat_inj.mp (cell_of_mem hn.2.1 hk s hm)
  refine ⟨fun c k hck hkn hc => ?_, fun c k q hck h0 hr hc => ?_, fun c k hck hkn hc => ?_,
    fun c k q hck h0 hr hc => ?_, fun r c hr hc hrc => ?_⟩
  · subst hck
    induction k with
    | zero => exact corner
    | succ k ih =>
      rw [show 2 * (k + 1) = 2 * k + 2 by omega, diagonal k (2 * k) (by omega) (by omega)]
      exact ih (by omega) (by omega)
  · subst hck
    induction k with
    | zero => exact first q h0 hr
    | succ k ih =>
      rw [show 2 * (k + 1) = 2 * k + 2 by omega, show q + (k + 1) = q + k + 1 by omega,
        diagonal (q + k) (2 * k) (by omega) (by omega)]
      exact ih (by omega) (by omega)
  · subst hck
    induction k with
    | zero => exact second0
    | succ k ih =>
      rw [show 2 * (k + 1) + 1 = 2 * k + 1 + 2 by omega,
        diagonal k (2 * k + 1) (by omega) (by omega)]
      exact ih (by omega) (by omega)
  · subst hck
    induction k with
    | zero => exact second q h0 hr
    | succ k ih =>
      rw [show 2 * (k + 1) + 1 = 2 * k + 1 + 2 by omega, show q + (k + 1) = q + k + 1 by omega,
        diagonal (q + k) (2 * k + 1) (by omega) (by omega)]
      exact ih (by omega) (by omega)
  · induction r generalizing c with
    | zero => simpa using row c (by omega) hc
    | succ r ih =>
      obtain ⟨c, rfl⟩ : ∃ c', c = c' + 2 := ⟨c - 2, by omega⟩
      rw [diagonal r c hr hc, ih c (by omega) (by omega) (by omega)]
      congr 1
      omega

omit h hA in
theorem eval_edgeD27 (k : List CellWrite) {r c : Nat} (hr : r + 1 < n) :
    (edgeD27 r c).eval (runKernel k s) = edgeLeft L r c := by
  unfold edgeD27 edgeLeft
  split
  · simp only [CellExpr.eval, leftAt_runKernel]
    rw [hL _ hr]
  · simp only [CellExpr.eval, leftAt_runKernel]
    rw [hL _ hr, hL _ (by omega), mean2_avg2]

theorem isD27_kernel :
    IsD27 n A L fun r c => (squareGet (runKernel (kernelD27 n) s).sq r c).toNat := by
  have hn := legalSide_facts h
  have hk := scheduled_d27 n h
  refine ⟨fun c hc => ?_, fun r c hr hc => ?_, fun r c hc h1 h2 => ?_, ?_, fun r c hr hc h0 h1 => ?_⟩
  · have hm : (⟨0, c, .weighted 2 (edgeD27 0 c) (c + 1) (.above ((c : Int) + 2)) (c + 1)⟩ : CellWrite) ∈
        kernelD27 n := by
      simp only [kernelD27, List.mem_append, List.mem_map, mem_upTo]
      exact .inl (.inl (.inl (.inl (.inl ⟨c, by omega, rfl⟩))))
    rw [cell_of_mem hn.2.1 hk s hm]
    simp only [CellExpr.eval, aboveAt_runKernel]
    rw [eval_edgeD27 s hL _ (by omega), hA _ (by omega) (by omega), scaled_iscaleRound]
  · have hm : (⟨r, c, .weighted 2 (edgeD27 r c) (c + 1) (.cell (r - 1) (c + 2)) (c + 1)⟩ : CellWrite) ∈
        kernelD27 n := by
      simp only [kernelD27, List.mem_append, List.mem_flatMap, List.mem_map, mem_upTo]
      exact .inl (.inl (.inl (.inl (.inr ⟨r, by omega, c, by omega, rfl⟩))))
    rw [cell_of_mem hn.2.1 hk s hm]
    simp only [CellExpr.eval]
    rw [eval_edgeD27 s hL _ (by omega), scaled_iscaleRound]
  · have hm : (⟨r + c / 2 - c / 2, c, edgeD27 (r + c / 2) c⟩ : CellWrite) ∈ kernelD27 n := by
      simp only [kernelD27, List.mem_append, List.mem_flatMap, List.mem_map, mem_upTo]
      exact .inl (.inl (.inl (.inr ⟨r + c / 2, by omega, c, by omega, rfl⟩)))
    rw [Nat.add_sub_cancel] at hm
    rw [cell_of_mem hn.2.1 hk s hm, eval_edgeD27 s hL _ (by omega)]
  · have hm : (⟨n - 1, 0, .avg (.cell (n - 2) 0) (.left (n - 1))⟩ : CellWrite) ∈ kernelD27 n := by
      simp only [kernelD27, List.mem_append, List.mem_singleton]
      exact .inl (.inl (.inr trivial))
    rw [cell_of_mem hn.2.1 hk s hm]
    simp only [CellExpr.eval, leftAt_runKernel]
    rw [hL _ (by omega), mean2_avg2]
  · have hm : (⟨r, c, .avg (.cell (r - 1) c) (.cell r (c - 1))⟩ : CellWrite) ∈ kernelD27 n := by
      simp only [kernelD27, List.mem_append, List.mem_flatMap, List.mem_map, mem_upTo, mem_downTo]
      by_cases e : r + c / 2 = n - 1 ∧ c % 2 = 0
      · refine .inl (.inr ⟨r, by omega, ?_⟩)
        rw [show 2 * (n - 1 - r) = c by omega]
      · refine .inr ⟨2 * (r + c / 2 + 1 - n) + c % 2, by omega, r, by omega, ?_⟩
        rw [show 2 * (r + c / 2 + 1 - n) + c % 2 + 2 * (n - 1 - r) = c by omega]
    rw [mean2_avg2]
    exact cell_of_mem hn.2.1 hk s hm

omit h hL in
theorem eval_edgeD63 (k : List CellWrite) {r c : Nat} (hc : c + 1 < n) :
    (edgeD63 r c).eval (runKernel k s) = edgeAbove A r c := by
  unfold edgeD63 edgeAbove
  split
  · simp only [CellExpr.eval, aboveAt_runKernel]
    rw [hA _ (by omega) (by omega)]
  · simp only [CellExpr.eval, aboveAt_runKernel]
    rw [hA _ (by omega) (by omega), hA _ (by omega) (by omega), mean2_avg2]

theorem isD63_kernel :
    IsD63 n A L fun r c => (squareGet (runKernel (kernelD63 n) s).sq r c).toNat := by
  have hn := legalSide_facts h
  have hk := scheduled_d63 n h
  refine ⟨fun r hr => ?_, fun r c hc hr => ?_, fun r c hr h1 h2 => ?_, ?_, fun r c hr hc h0 h1 => ?_⟩
  · have hm : (⟨r, 0, .weighted 2 (edgeD63 r 0) (r + 1) (.left (r + 2)) (r + 1)⟩ : CellWrite) ∈
        kernelD63 n := by
      simp only [kernelD63, List.mem_append, List.mem_map, mem_upTo]
      exact .inl (.inl (.inl (.inl (.inl ⟨r, by omega, rfl⟩))))
    rw [cell_of_mem hn.2.1 hk s hm]
    simp only [CellExpr.eval, leftAt_runKernel]
    rw [eval_edgeD63 s hA _ (by omega), hL _ (by omega), scaled_iscaleRound]
  · have hm : (⟨r, c, .weighted 2 (edgeD63 r c) (r + 1) (.cell (r + 2) (c - 1)) (r + 1)⟩ : CellWrite) ∈
        kernelD63 n := by
      simp only [kernelD63, List.mem_append, List.mem_flatMap, List.mem_map, mem_upTo]
      exact .inl (.inl (.inl (.inl (.inr ⟨c, by omega, r, by omega, rfl⟩))))
    rw [cell_of_mem hn.2.1 hk s hm]
    simp only [CellExpr.eval]
    rw [eval_edgeD63 s hA _ (by omega), scaled_iscaleRound]
  · have hm : (⟨r, c + r / 2 - r / 2, edgeD63 r (c + r / 2)⟩ : CellWrite) ∈ kernelD63 n := by
      simp only [kernelD63, List.mem_append, List.mem_flatMap, List.mem_map, mem_upTo]
      exact .inl (.inl (.inl (.inr ⟨c + r / 2, by omega, r, by omega, rfl⟩)))
    rw [Nat.add_sub_cancel] at hm
    rw [cell_of_mem hn.2.1 hk s hm, eval_edgeD63 s hA _ (by omega)]
  · have hm : (⟨0, n - 1, .avg (.cell 0 (n - 2)) (.above ((n : Int) - 1))⟩ : CellWrite) ∈
        kernelD63 n := by
      simp only [kernelD63, List.mem_append, List.mem_singleton]
      exact .inl (.inl (.inr trivial))
    rw [cell_of_mem hn.2.1 hk s hm]
    simp only [CellExpr.eval, aboveAt_runKernel]
    rw [hA _ (by omega) (by omega), mean2_avg2]
  · have hm : (⟨r, c, .avg (.cell r (c - 1)) (.cell (r - 1) c)⟩ : CellWrite) ∈ kernelD63 n := by
      simp only [kernelD63, List.mem_append, List.mem_flatMap, List.mem_map, mem_upTo, mem_downTo]
      by_cases e : c + r / 2 = n - 1 ∧ r % 2 = 0
      · refine .inl (.inr ⟨c, by omega, ?_⟩)
        rw [show 2 * (n - 1 - c) = r by omega]
      · refine .inr ⟨2 * (c + r / 2 + 1 - n) + r % 2, by omega, c, by omega, ?_⟩
        rw [show 2 * (c + r / 2 + 1 - n) + r % 2 + 2 * (n - 1 - c) = r by omega]
    rw [mean2_avg2]
    exact cell_of_mem hn.2.1 hk s hm

/-- Every directional kernel satisfies the equations of its mode. -/
theorem isDirectional_kernel (m : Mode) :
    IsDirectional m n A L fun r c => (squareGet (runKernel (kernelOf m n) s).sq r c).toNat := by
  cases m
  case d45 => exact isD45_kernel h s hA hL
  case d135 => exact isD135_kernel h s hA hL
  case d117 => exact isD117_kernel h s hA hL
  case d153 => exact isD153_kernel h s hA hL
  case d27 => exact isD27_kernel h s hA hL
  case d63 => exact isD63_kernel h s hA hL
  all_goals trivial

end

end Sys2Proof.Machine
end

