-- ==== Sys2Proof/Laws/Execute.lean ====
section
/-!
SUPPORT. What a command can do, said once: the three outcomes of `exec` (`exec_cases`), the write phase
(`perform_writes`), and the value of `OUT` for every mode (`out_…`).
-/

namespace Sys2Proof.Machine

/-! The outcomes of a command. -/

/-- Every arm of `exec` is the skeleton applied to the command's mode, blend bit and operands. -/
theorem exec_eq (i : Instr) (s : State) : exec i s = runCommand i.ii i.mode i.operands s := by
  cases i <;> rfl

theorem footprintAdmitted_iff (cfg : Config) (ii : Bool) (o : Operands) :
    footprintAdmitted cfg ii o = true ↔
      ∀ a ∈ readSet ii o ++ writeSet o, admits cfg a = true := List.all_eq_true

theorem checkCommand_none {cfg : Config} {ii : Bool} {o : Operands} :
    checkCommand cfg ii o = none ↔
      legalShape o.bwl o.bhl = true ∧ (ii = true → cfg.hasII = true) ∧
        ∀ a ∈ readSet ii o ++ writeSet o, admits cfg a = true := by
  rw [← footprintAdmitted_iff]
  unfold checkCommand
  cases legalShape o.bwl o.bhl <;> cases ii <;> cases cfg.hasII <;>
    cases footprintAdmitted cfg _ o <;> simp

/-- A failing check names one of three causes. -/
theorem checkCommand_some {cfg : Config} {ii : Bool} {o : Operands} {c : Cause}
    (h : checkCommand cfg ii o = some c) :
    c = .illegalSize ∨ c = .unsupported ∨ c = .access := by
  unfold checkCommand at h
  grind

theorem ready_iff {i : Instr} {s : State} :
    Ready i s ↔ s.err = false ∧ checkCommand s.cfg i.ii i.operands = none := by
  rw [checkCommand_none]
  rfl

theorem exec_of_ready {i : Instr} {s : State} (h : Ready i s) :
    exec i s = .next (perform i.ii i.mode i.operands s) := by
  obtain ⟨h1, h2⟩ := ready_iff.mp h
  simp [exec_eq, runCommand, h1, h2]

theorem exec_of_err {i : Instr} {s : State} (h : s.err = true) : exec i s = .next s := by
  simp [exec_eq, runCommand, h]

/-- A command discards itself on a halted engine, faults, or is performed; nothing else. -/
theorem exec_cases {i : Instr} {s t : State} (h : exec i s = .next t) :
    (s.err = true ∧ t = s)
      ∨ (s.err = false ∧ ∃ c, (c = .illegalSize ∨ c = .unsupported ∨ c = .access) ∧
          t = raiseFault c s)
      ∨ (Ready i s ∧ t = perform i.ii i.mode i.operands s) := by
  rw [exec_eq, runCommand] at h
  split at h
  · exact .inl ⟨‹_›, by simpa using h.symm⟩
  · rename_i he
    split at h
    · rename_i c hc
      exact .inr (.inl ⟨by simpa using he, c, checkCommand_some hc, by simpa using h.symm⟩)
    · rename_i hc
      exact .inr (.inr ⟨ready_iff.mpr ⟨by simpa using he, hc⟩, by simpa using h.symm⟩)

/-- A command never stops the machine. -/
theorem exec_next (i : Instr) (s : State) : ∃ t, exec i s = .next t := by
  rw [exec_eq, runCommand]
  split
  · exact ⟨_, rfl⟩
  · split <;> exact ⟨_, rfl⟩

/-! The write phase. -/

theorem wf_writes {ι : Type} (f : ι → Word) (g : ι → Sample) (l : List ι) {m : Memory}
    (hm : m.wf = true) : (l.foldl (fun m p => m.write (f p) (g p)) m).wf = true := by
  induction l generalizing m with
  | nil => exact hm
  | cons p l ih => exact ih (Memory.wf_write hm _ _)

theorem read_writes_other {ι : Type} (f : ι → Word) (g : ι → Sample) (l : List ι) {m : Memory}
    (hm : m.wf = true) {a : Word} (h : ∀ p ∈ l, f p ≠ a) :
    (l.foldl (fun m p => m.write (f p) (g p)) m).read a = m.read a := by
  induction l generalizing m with
  | nil => rfl
  | cons p l ih =>
    rw [List.foldl_cons, ih (Memory.wf_write hm _ _) (fun q hq => h q (by simp [hq])),
      Memory.read_write hm, if_neg (h p (by simp))]

/-- The last write to an address decides what it holds. -/
theorem read_writes_last {ι : Type} (f : ι → Word) (g : ι → Sample) (before after : List ι) (p : ι)
    {m : Memory} (hm : m.wf = true) (h : ∀ q ∈ after, f q ≠ f p) :
    ((before ++ p :: after).foldl (fun m p => m.write (f p) (g p)) m).read (f p) = g p := by
  rw [List.foldl_append, List.foldl_cons, read_writes_other f g after
    (Memory.wf_write (wf_writes f g before hm) _ _) h, Memory.read_write (wf_writes f g before hm),
    if_pos rfl]

/-- The positions of a block stand in row-major order. -/
theorem positions_sorted (o : Operands) :
    (positions o).Pairwise fun p q => p.1 < q.1 ∨ (p.1 = q.1 ∧ p.2 < q.2) := by
  unfold positions upTo
  rw [List.pairwise_flatMap]
  refine ⟨fun r _ => ?_, ?_⟩
  · rw [List.pairwise_map]
    exact (List.pairwise_lt_range' ..).imp fun h => .inr ⟨rfl, h⟩
  · refine (List.pairwise_lt_range' ..).imp fun {r r'} h p hp q hq => .inl ?_
    obtain ⟨c, -, rfl⟩ := List.mem_map.mp hp
    obtain ⟨c', -, rfl⟩ := List.mem_map.mp hq
    exact h

theorem wf_writeBack (o : Operands) (out : Block) {m : Memory} (hm : m.wf = true) :
    (writeBack o out m).wf = true :=
  wf_writes (fun p : Nat × Nat => destAddr o p.1 p.2) (fun p => out p.1 p.2) _ hm

theorem read_writeBack_other (o : Operands) (out : Block) {m : Memory} (hm : m.wf = true) {a : Word}
    (h : ∀ r c : Nat, r < height o → c < width o → addr o.dst o.ds r c ≠ a) :
    (writeBack o out m).read a = m.read a :=
  read_writes_other (fun p : Nat × Nat => destAddr o p.1 p.2) (fun p => out p.1 p.2) _ hm
    fun p hp => h p.1 p.2 (mem_positions.mp hp).1 (mem_positions.mp hp).2

theorem read_writeBack_last (o : Operands) (out : Block) {m : Memory} (hm : m.wf = true) {r c : Nat}
    (hr : r < height o) (hc : c < width o) (h : LastWriter o r c) :
    (writeBack o out m).read (addr o.dst o.ds r c) = out r c := by
  obtain ⟨before, after, e⟩ := List.append_of_mem (mem_positions.mpr ⟨hr, hc⟩ : (r, c) ∈ positions o)
  have hs := positions_sorted o
  rw [e, List.pairwise_append, List.pairwise_cons] at hs
  unfold writeBack
  rw [e]
  refine read_writes_last (fun p : Nat × Nat => destAddr o p.1 p.2) (fun p => out p.1 p.2) before
    after (r, c) hm fun q hq he => ?_
  have hq' := mem_positions.mp (e ▸ (by simp [hq]) : q ∈ positions o)
  have h1 := hs.2.1.1 q hq
  have h2 := h q.1 q.2 hq'.1 hq'.2 he
  omega

/-- `OUT` of a command (R133). -/
def outOf (ii : Bool) (m : Mode) (o : Operands) (s : State) : Block :=
  (computePhase ii m o (readPhase ii o s)).2

/-- A performed command writes the block `OUT`. -/
theorem perform_writes (ii : Bool) (m : Mode) (o : Operands) {s : State} (hm : s.mem.wf = true) :
    WritesBlock o (fun r c => (outOf ii m o s r c).toNat) s (perform ii m o s) where
  stored r c hr hc h := by rw [perform_mem, read_writeBack_last o _ hm hr hc h]; rfl
  kept a h := by rw [perform_mem, read_writeBack_other o _ hm h]
  err := rfl
  cause := rfl
  cfg := rfl
  host := rfl

theorem WritesBlock.congr {o : Operands} {P Q : Nat → Nat → Nat} {s t : State}
    (h : WritesBlock o P s t) (e : ∀ r c, r < height o → c < width o → P r c = Q r c) :
    WritesBlock o Q s t :=
  { h with stored := fun r c hr hc hl => by rw [← e r c hr hc, h.stored r c hr hc hl] }

/-! The value of `OUT`. -/

/-- What a predictor answers for row `r`, column `c`, after the read phase. -/
def intraOf (ii : Bool) (m : Mode) (o : Operands) (s : State) : Block :=
  (predict m o (readPhase ii o s)).2

theorem outOf_pred (m : Mode) (o : Operands) (s : State) :
    outOf false m o s = intraOf false m o s := rfl

theorem predict_ib (m : Mode) (o : Operands) (sc : Scratch) : (predict m o sc).1.ib = sc.ib := by
  cases m <;> simp [predict, predictDc, predictV, predictH, predictTm, predictSquare]

theorem weight_le (m : Mode) (o : Operands) (r c : Nat) : weight m o r c ≤ 128 := by
  have h1 := w1d_le (r * sizeFactor o)
  have h2 := w1d_le (c * sizeFactor o)
  have h3 := w1d_le (min r c * sizeFactor o)
  cases m <;> simp only [weight, axisWeight, Nat.shiftRight_eq_div_pow] <;> omega

theorem blendW_eq (w p q : Nat) : blendW w p q = ((256 - w) * p + w * q + 127) / 256 := by
  simp [blendW, Nat.shiftRight_eq_div_pow]

/-- A blend of two samples is a sample (R203). -/
theorem blendW_le {w p q : Nat} (hw : w ≤ 256) (hp : p ≤ 255) (hq : q ≤ 255) :
    blendW w p q ≤ 255 := by
  have h1 : (256 - w) * p ≤ (256 - w) * 255 := Nat.mul_le_mul_left _ hp
  have h2 : w * q ≤ w * 255 := Nat.mul_le_mul_left _ hq
  have h3 : (256 - w) * 255 + w * 255 = 256 * 255 := by
    rw [← Nat.add_mul, Nat.sub_add_cancel hw]
  rw [blendW_eq]
  omega

/-- `OUT` of an `IIPRED` command: the blend of the inter sample in memory with the intra sample. -/
theorem outOf_iipred (m : Mode) (o : Operands) (s : State) {r c : Nat} (hr : r < height o)
    (hc : c < width o) :
    (outOf true m o s r c).toNat =
      blendW (weight m o r c) (s.mem.read (addr o.dst o.ds r c)).toNat
        (intraOf true m o s r c).toNat := by
  have hb := width_bounds o
  have hb' := height_bounds o
  have hw := weight_le m o r c
  have hib : squareGet (predict m o (readPhase true o s)).1.ib r c =
      s.mem.read (addr o.dst o.ds r c) := by
    rw [predict_ib]
    simp only [readPhase, if_true]
    rw [ib_loadInter _ _ _ (by omega) (by omega), if_pos ⟨hr, hc⟩]
    rfl
  change (blendBlock m o (predict m o (readPhase true o s)).1
    (predict m o (readPhase true o s)).2 r c).toNat = _
  unfold blendBlock
  rw [hib, toSample_toNat (blendW_le (by omega) (sample_le _) (sample_le _))]
  rfl

theorem aboveAt_readPhase (ii : Bool) (o : Operands) (s : State) (j : Int) :
    (readPhase ii o s).aboveAt j = (buildContext o s.mem s.scratch).aboveAt j := by
  cases ii <;> simp [readPhase]

theorem leftAt_readPhase (ii : Bool) (o : Operands) (s : State) (j : Nat) :
    (readPhase ii o s).leftAt j = (buildContext o s.mem s.scratch).leftAt j := by
  cases ii <;> simp [readPhase]

theorem aboveAt_adapt_readPhase (ii : Bool) (o : Operands) (s : State) {j : Int} (hj : -1 ≤ j)
    (hj' : j < side o) :
    ((adapt o (readPhase ii o s)).aboveAt j).toNat = contextAbove o s.mem j := by
  have hb := side_bounds o
  rw [← aboveAt_context o s.mem s.scratch hj hj', aboveAt_adapt _ _ hj (by omega),
    aboveAt_adapt _ _ hj (by omega), aboveAt_readPhase, aboveAt_readPhase]

theorem leftAt_adapt_readPhase (ii : Bool) (o : Operands) (s : State) {j : Nat} (hj : j < side o) :
    ((adapt o (readPhase ii o s)).leftAt j).toNat = contextLeft o s.mem j := by
  have hb := side_bounds o
  rw [← leftAt_context o s.mem s.scratch hj, leftAt_adapt _ _ (by omega),
    leftAt_adapt _ _ (by omega), leftAt_readPhase, leftAt_readPhase]

theorem intraOf_v (ii : Bool) (o : Operands) (s : State) {r c : Nat} (hc : c < width o) :
    (intraOf ii .v o s r c).toNat = contextAbove o s.mem c := by
  simp only [intraOf, predict, predictV, aboveAt_readPhase]
  exact aboveAt_builder o _ _ (by omega) (by omega)

theorem intraOf_h (ii : Bool) (o : Operands) (s : State) {r c : Nat} (hr : r < height o) :
    (intraOf ii .h o s r c).toNat = contextLeft o s.mem r := by
  simp only [intraOf, predict, predictH, leftAt_readPhase]
  exact leftAt_builder o _ _ hr

theorem intraOf_tm (ii : Bool) (o : Operands) (s : State) {r c : Nat} (hr : r < height o)
    (hc : c < width o) :
    (intraOf ii .tm o s r c).toNat =
      clamp255 (contextLeft o s.mem r + contextAbove o s.mem c - contextAbove o s.mem (-1)) := by
  have hb := width_bounds o
  simp only [intraOf, predict, predictTm, aboveAt_readPhase, leftAt_readPhase]
  rw [toSample_toNat (clamp255_le _), leftAt_builder o _ _ hr,
    aboveAt_builder o _ _ (by omega) (by omega), aboveAt_builder o _ _ (by omega) (by omega)]

/-- The samples of a directional mode satisfy the equations of that mode. -/
theorem intraOf_directional (ii : Bool) (m : Mode) (hd : directionalMode m = true) (o : Operands)
    (s : State) :
    IsDirectional m (side o) (contextAbove o s.mem) (contextLeft o s.mem)
      fun r c => (intraOf ii m o s r c).toNat := by
  have key := isDirectional_kernel (legalSide_side o) (adapt o (readPhase ii o s))
    (A := contextAbove o s.mem) (L := contextLeft o s.mem)
    (fun j h h' => aboveAt_adapt_readPhase ii o s h h')
    (fun j h => leftAt_adapt_readPhase ii o s h) m
  have e : intraOf ii m o s =
      squareGet (runKernel (kernelOf m (side o)) (adapt o (readPhase ii o s))).sq := by
    cases m <;> first | rfl | cases hd
  rw [e]
  exact key

end Sys2Proof.Machine
end

