-- ==== Sys2Proof/Laws/PerInstr.lean ====
section
/-!
SUPPORT. The opcode map of 30_encoding.md R103, one lemma per command: under the mask of the map, word 0 of an
encoded command is the command's own word, whatever its operands.
-/

namespace Sys2Proof.Laws.OpcodeMatch

/-- The words of R103's table, written out from it. -/
def matchWord : Instr → Word
  | .predDc _ => 0x00000000
  | .predV _ => 0x00000001
  | .predH _ => 0x00000002
  | .predTm _ => 0x00000003
  | .predD45 _ => 0x00000004
  | .predD135 _ => 0x00000005
  | .predD117 _ => 0x00000006
  | .predD153 _ => 0x00000007
  | .predD27 _ => 0x00000008
  | .predD63 _ => 0x00000009
  | .iipredDc _ => 0x00002000
  | .iipredV _ => 0x00002001
  | .iipredH _ => 0x00002002
  | .iipredTm _ => 0x00002003
  | .iipredD45 _ => 0x00002004
  | .iipredD135 _ => 0x00002005
  | .iipredD117 _ => 0x00002006
  | .iipredD153 _ => 0x00002007
  | .iipredD27 _ => 0x00002008
  | .iipredD63 _ => 0x00002009

/-- The encoding of the command matches its row of R103. -/
def Statement (i : Instr) : Prop := (encode i).cmd &&& 0xFFFFE00F = matchWord i

/-- The mask keeps the mode and the blend bit and clears the nine operand bits between them. -/
theorem masked : ∀ m < 10, ∀ b < 2, ∀ x < 512,
    (m + x * 2 ^ 4 + b * 2 ^ 13) &&& 0xFFFFE00F = m + b * 2 ^ 13 := by
  decide +kernel

theorem of_matchWord (i : Instr) (h : matchWord i = BitVec.ofNat 32 (i.mode.code + i.ii.toNat * 2 ^ 13)) :
    Statement i := by
  obtain ⟨-, h1, h2, h3⟩ := encodeCmd_toNat i
  have h4 := i.operands.up.toNat_le
  have h5 := i.operands.left.toNat_le
  have h6 := i.operands.right.toNat_le
  have h7 := i.ii.toNat_le
  have key := masked i.mode.code h1 i.ii.toNat (by omega) (i.operands.bwl.code + i.operands.bhl.code * 2 ^ 3
    + i.operands.up.toNat * 2 ^ 6 + i.operands.left.toNat * 2 ^ 7 + i.operands.right.toNat * 2 ^ 8) (by omega)
  change encodeCmd i &&& _ = _
  refine BitVec.eq_of_toNat_eq ?_
  rw [h, BitVec.toNat_and, (encodeCmd_toNat i).1, BitVec.toNat_ofNat, ← key,
    Nat.mod_eq_of_lt (by rw [key]; omega)]
  congr 1
  ring

theorem predDc (o : Operands) : Statement (.predDc o) :=
  of_matchWord _ (by simp [matchWord, Instr.mode, Instr.ii, Mode.code])
theorem predV (o : Operands) : Statement (.predV o) :=
  of_matchWord _ (by simp [matchWord, Instr.mode, Instr.ii, Mode.code])
theorem predH (o : Operands) : Statement (.predH o) :=
  of_matchWord _ (by simp [matchWord, Instr.mode, Instr.ii, Mode.code])
theorem predTm (o : Operands) : Statement (.predTm o) :=
  of_matchWord _ (by simp [matchWord, Instr.mode, Instr.ii, Mode.code])
theorem predD45 (o : Operands) : Statement (.predD45 o) :=
  of_matchWord _ (by simp [matchWord, Instr.mode, Instr.ii, Mode.code])
theorem predD135 (o : Operands) : Statement (.predD135 o) :=
  of_matchWord _ (by simp [matchWord, Instr.mode, Instr.ii, Mode.code])
theorem predD117 (o : Operands) : Statement (.predD117 o) :=
  of_matchWord _ (by simp [matchWord, Instr.mode, Instr.ii, Mode.code])
theorem predD153 (o : Operands) : Statement (.predD153 o) :=
  of_matchWord _ (by simp [matchWord, Instr.mode, Instr.ii, Mode.code])
theorem predD27 (o : Operands) : Statement (.predD27 o) :=
  of_matchWord _ (by simp [matchWord, Instr.mode, Instr.ii, Mode.code])
theorem predD63 (o : Operands) : Statement (.predD63 o) :=
  of_matchWord _ (by simp [matchWord, Instr.mode, Instr.ii, Mode.code])
theorem iipredDc (o : Operands) : Statement (.iipredDc o) :=
  of_matchWord _ (by simp [matchWord, Instr.mode, Instr.ii, Mode.code])
theorem iipredV (o : Operands) : Statement (.iipredV o) :=
  of_matchWord _ (by simp [matchWord, Instr.mode, Instr.ii, Mode.code])
theorem iipredH (o : Operands) : Statement (.iipredH o) :=
  of_matchWord _ (by simp [matchWord, Instr.mode, Instr.ii, Mode.code])
theorem iipredTm (o : Operands) : Statement (.iipredTm o) :=
  of_matchWord _ (by simp [matchWord, Instr.mode, Instr.ii, Mode.code])
theorem iipredD45 (o : Operands) : Statement (.iipredD45 o) :=
  of_matchWord _ (by simp [matchWord, Instr.mode, Instr.ii, Mode.code])
theorem iipredD135 (o : Operands) : Statement (.iipredD135 o) :=
  of_matchWord _ (by simp [matchWord, Instr.mode, Instr.ii, Mode.code])
theorem iipredD117 (o : Operands) : Statement (.iipredD117 o) :=
  of_matchWord _ (by simp [matchWord, Instr.mode, Instr.ii, Mode.code])
theorem iipredD153 (o : Operands) : Statement (.iipredD153 o) :=
  of_matchWord _ (by simp [matchWord, Instr.mode, Instr.ii, Mode.code])
theorem iipredD27 (o : Operands) : Statement (.iipredD27 o) :=
  of_matchWord _ (by simp [matchWord, Instr.mode, Instr.ii, Mode.code])
theorem iipredD63 (o : Operands) : Statement (.iipredD63 o) :=
  of_matchWord _ (by simp [matchWord, Instr.mode, Instr.ii, Mode.code])

end Sys2Proof.Laws.OpcodeMatch
end

