-- ==== Sys2Proof/Laws/Result.lean ====
section
/-!
SUPPORT. What the block a command writes depends on, and that it is written: every cell of a kernel's square
is assigned (`covered`), the prediction is a function of the context (`intraOf_congr`), the block of the read
set (`outOf_congr`), memory of the block (`writeBack_congr`).
-/

namespace Sys2Proof.Machine

/-! Coverage of the square. -/

theorem scheduled_bounds {n mask : Nat} {k : List CellWrite} (h : scheduled n mask k = true) :
    ∀ w ∈ k, w.row < n ∧ w.col < n := by
  induction k generalizing mask with
  | nil => simp
  | cons v k ih =>
    obtain ⟨h1, h2, h3, h4, h5⟩ := scheduled_cons.mp h
    intro w hw
    rcases List.mem_cons.mp hw with rfl | hw
    · exact ⟨h1, h2⟩
    · exact ih h5 w hw

/-- Every cell of the square is written by some assignment. -/
theorem covered {n : Nat} (h : legalSide n) {m : Mode} (hd : directionalMode m = true) {r c : Nat}
    (hr : r < n) (hc : c < n) : ∃ w ∈ kernelOf m n, w.row = r ∧ w.col = c := by
  have hn := legalSide_facts h
  suffices H : ∃ e, (⟨r, c, e⟩ : CellWrite) ∈ kernelOf m n from
    H.elim fun e he => ⟨_, he, rfl, rfl⟩
  cases m
  case d45 =>
    simp only [kernelOf, kernelD45, List.mem_append, List.mem_flatMap, List.mem_map, mem_upTo,
      CellWrite.mk.injEq]
    rcases Nat.lt_trichotomy (r + c) (n - 1) with hk | hk | hk
    · exact ⟨_, .inl (.inl ⟨r + c, by omega, c, by omega, by omega, rfl, rfl⟩)⟩
    · exact ⟨_, .inl (.inr ⟨c, by omega, by omega, rfl, rfl⟩)⟩
    · exact ⟨_, .inr ⟨r, by omega, c, by omega, rfl, rfl, rfl⟩⟩
  case d135 =>
    simp only [kernelOf, kernelD135, List.mem_append, List.mem_flatMap, List.mem_map, mem_upTo,
      CellWrite.mk.injEq]
    by_cases h0 : r = 0
    · exact ⟨_, .inl (.inl ⟨c, by omega, h0.symm, rfl, rfl⟩)⟩
    · by_cases h1 : c = 0
      · exact ⟨_, .inl (.inr ⟨r, by omega, rfl, h1.symm, rfl⟩)⟩
      · exact ⟨_, .inr ⟨r, by omega, c, by omega, rfl, rfl, rfl⟩⟩
  case d117 =>
    simp only [kernelOf, kernelD117, List.mem_append, List.mem_flatMap, List.mem_map, List.mem_cons,
      mem_upTo, CellWrite.mk.injEq]
    by_cases h0 : r = 0
    · exact ⟨_, .inl (.inl ⟨c, by omega, h0.symm, rfl, rfl⟩)⟩
    · by_cases h1 : r = 1
      · exact ⟨_, .inl (.inr ⟨c, by omega, h1.symm, rfl, rfl⟩)⟩
      · by_cases h2 : c = 0
        · exact ⟨_, .inr ⟨r, by omega, .inl ⟨rfl, h2, rfl⟩⟩⟩
        · exact ⟨_, .inr ⟨r, by omega, .inr ⟨c, by omega, rfl, rfl, rfl⟩⟩⟩
  case d153 =>
    simp only [kernelOf, kernelD153, List.mem_append, List.mem_flatMap, List.mem_map,
      List.mem_singleton, mem_upTo, CellWrite.mk.injEq]
    by_cases h0 : c = 0
    · by_cases h1 : r = 0
      · exact ⟨_, .inl (.inl (.inl (.inl (.inl ⟨h1, h0, rfl⟩))))⟩
      · exact ⟨_, .inl (.inl (.inl (.inl (.inr ⟨r, by omega, rfl, h0.symm, rfl⟩))))⟩
    · by_cases h2 : c = 1
      · by_cases h1 : r = 0
        · exact ⟨_, .inl (.inl (.inl (.inr ⟨h1, h2, rfl⟩)))⟩
        · exact ⟨_, .inl (.inl (.inr ⟨r, by omega, rfl, h2.symm, rfl⟩))⟩
      · by_cases h1 : r = 0
        · exact ⟨_, .inl (.inr ⟨c, by omega, h1.symm, rfl, rfl⟩)⟩
        · exact ⟨_, .inr ⟨r, by omega, c, by omega, rfl, rfl, rfl⟩⟩
  case d27 =>
    simp only [kernelOf, kernelD27, List.mem_append, List.mem_flatMap, List.mem_map,
      List.mem_singleton, mem_upTo, mem_downTo, CellWrite.mk.injEq]
    by_cases h1 : r + c / 2 + 2 ≤ n / 2
    · by_cases h0 : r = 0
      · exact ⟨_, .inl (.inl (.inl (.inl (.inl ⟨c, by omega, h0.symm, rfl, rfl⟩))))⟩
      · exact ⟨_, .inl (.inl (.inl (.inl (.inr ⟨r, by omega, c, by omega, rfl, rfl, rfl⟩))))⟩
    · by_cases h2 : r + c / 2 + 2 ≤ n
      · exact ⟨_, .inl (.inl (.inl (.inr ⟨r + c / 2, by omega, c, by omega, by omega, rfl, rfl⟩)))⟩
      · by_cases h3 : c = 2 * (n - 1 - r)
        · by_cases h4 : c = 0
          · exact ⟨_, .inl (.inl (.inr ⟨by omega, h4, rfl⟩))⟩
          · exact ⟨_, .inl (.inr ⟨r, by omega, rfl, h3.symm, rfl⟩)⟩
        · exact ⟨_, .inr ⟨c - 2 * (n - 1 - r), by omega, r, by omega, rfl, by omega, rfl⟩⟩
  case d63 =>
    simp only [kernelOf, kernelD63, List.mem_append, List.mem_flatMap, List.mem_map,
      List.mem_singleton, mem_upTo, mem_downTo, CellWrite.mk.injEq]
    by_cases h1 : c + r / 2 + 2 ≤ n / 2
    · by_cases h0 : c = 0
      · exact ⟨_, .inl (.inl (.inl (.inl (.inl ⟨r, by omega, rfl, h0.symm, rfl⟩))))⟩
      · exact ⟨_, .inl (.inl (.inl (.inl (.inr ⟨c, by omega, r, by omega, rfl, rfl, rfl⟩))))⟩
    · by_cases h2 : c + r / 2 + 2 ≤ n
      · exact ⟨_, .inl (.inl (.inl (.inr ⟨c + r / 2, by omega, r, by omega, rfl, by omega, rfl⟩)))⟩
      · by_cases h3 : r = 2 * (n - 1 - c)
        · by_cases h4 : r = 0
          · exact ⟨_, .inl (.inl (.inr ⟨h4, by omega, rfl⟩))⟩
          · exact ⟨_, .inl (.inr ⟨c, by omega, h3.symm, rfl, rfl⟩)⟩
        · exact ⟨_, .inr ⟨r - 2 * (n - 1 - c), by omega, c, by omega, by omega, rfl, rfl⟩⟩
  all_goals cases hd

/-- Two scratch arrays with the same context give the same square. -/
theorem kernel_congr {n : Nat} (h : legalSide n) {m : Mode} (hd : directionalMode m = true)
    {s t : Scratch} (ha : ∀ j : Int, -1 ≤ j → j < n → s.aboveAt j = t.aboveAt j)
    (hl : ∀ j, j < n → s.leftAt j = t.leftAt j) {r c : Nat} (hr : r < n) (hc : c < n) :
    squareGet (runKernel (kernelOf m n) s).sq r c =
      squareGet (runKernel (kernelOf m n) t).sq r c :=
  runKernel_agree_from (legalSide_facts h).2.1 _ s t (scheduled_kernelOf m h) ha hl (by simp) hr hc
    (.inr (covered h hd hr hc))

/-- A kernel leaves a cell it does not assign alone. -/
theorem runKernel_untouched (k : List CellWrite) (s : Scratch) {r c : Nat} (hr : r < 64) (hc : c < 64)
    (h : ∀ w ∈ k, ¬ (w.row = r ∧ w.col = c)) :
    squareGet (runKernel k s).sq r c = squareGet s.sq r c := by
  induction k generalizing s with
  | nil => rfl
  | cons w k ih =>
    change squareGet (runKernel k (runWrite s w)).sq r c = _
    rw [ih _ (fun v hv => h v (by simp [hv])), squareGet_runWrite _ _ hr hc, if_neg (h w (by simp))]

/-! The DC value. -/

theorem sum_upTo (f : Nat → Nat) {k : Nat} (hk : 0 < k) :
    ((upTo 0 (k - 1)).map f).sum = ∑ i ∈ Finset.range k, f i := by
  obtain ⟨k, rfl⟩ : ∃ j, k = j + 1 := ⟨k - 1, by omega⟩
  simp only [upTo, Nat.add_sub_cancel, Nat.sub_zero, ← List.range_eq_range']
  induction k with
  | zero => simp
  | succ k ih =>
    rw [List.range_succ, List.map_append, List.sum_append, ih (by omega),
      Finset.sum_range_succ _ (k + 1)]
    simp

theorem sumAbove_eq (ii : Bool) (o : Operands) (s : State) :
    sumAbove o (readPhase ii o s) = ∑ c ∈ Finset.range (width o), contextAbove o s.mem c := by
  have hb := width_bounds o
  unfold sumAbove
  rw [sum_upTo _ (by omega)]
  refine Finset.sum_congr rfl fun c hc => ?_
  rw [Finset.mem_range] at hc
  rw [aboveAt_readPhase, aboveAt_builder o _ _ (by omega) (by omega)]

theorem sumLeft_eq (ii : Bool) (o : Operands) (s : State) :
    sumLeft o (readPhase ii o s) = ∑ r ∈ Finset.range (height o), contextLeft o s.mem r := by
  have hb := height_bounds o
  unfold sumLeft
  rw [sum_upTo _ (by omega)]
  refine Finset.sum_congr rfl fun r hr => ?_
  rw [Finset.mem_range] at hr
  rw [leftAt_readPhase, leftAt_builder o _ _ (by omega)]

theorem contextAbove_le (o : Operands) (m : Memory) (j : Int) : contextAbove o m j ≤ 255 := by
  unfold contextAbove
  split <;> split <;> first | exact sample_le _ | omega

theorem contextLeft_le (o : Operands) (m : Memory) (j : Nat) : contextLeft o m j ≤ 255 := by
  unfold contextLeft
  split <;> first | exact sample_le _ | omega

/-- The mean of samples is a sample. -/
theorem dcOf_le (o : Operands) (m : Memory) : dcOf o (contextAbove o m) (contextLeft o m) ≤ 255 := by
  have h1 := width_bounds o
  have h2 := height_bounds o
  have ha := Finset.sum_le_card_nsmul (Finset.range (width o)) (fun c => contextAbove o m c) 255
    (fun _ _ => contextAbove_le _ _ _)
  have hl := Finset.sum_le_card_nsmul (Finset.range (height o)) (fun r => contextLeft o m r) 255
    (fun _ _ => contextLeft_le _ _ _)
  simp only [Finset.card_range, smul_eq_mul] at ha hl
  unfold dcOf
  split
  · omega
  · rename_i h
    apply Nat.lt_succ_iff.mp
    rw [Nat.div_lt_iff_lt_mul]
    · cases h3 : o.up <;> cases h4 : o.left <;> simp_all <;> omega
    · cases h3 : o.up <;> cases h4 : o.left <;> simp_all <;> omega

theorem intraOf_dc (ii : Bool) (o : Operands) (s : State) (r c : Nat) :
    (intraOf ii .dc o s r c).toNat = dcOf o (contextAbove o s.mem) (contextLeft o s.mem) := by
  have e : dcValue o (readPhase ii o s) = dcOf o (contextAbove o s.mem) (contextLeft o s.mem) := by
    unfold dcValue dcOf
    rw [sumAbove_eq, sumLeft_eq]
    cases o.up <;> cases o.left <;> simp [Nat.shiftRight_eq_div_pow]
  simp only [intraOf, predict, predictDc]
  rw [toSample_toNat (by rw [e]; exact dcOf_le _ _), e]

/-! Dependence on the context and on the read set. -/

theorem intraOf_square (ii : Bool) (m : Mode) (o : Operands) (s : State)
    (hd : directionalMode m = true) :
    intraOf ii m o s =
      squareGet (runKernel (kernelOf m (side o)) (adapt o (readPhase ii o s))).sq := by
  cases m <;> first | rfl | cases hd

/-- Two states in which a command has the same context give the same prediction. -/
theorem intraOf_congr {ii ii' : Bool} {m : Mode} {o : Operands} {s s' : State}
    (ha : ∀ j : Int, -1 ≤ j → j < side o → contextAbove o s.mem j = contextAbove o s'.mem j)
    (hl : ∀ j : Nat, j < side o → contextLeft o s.mem j = contextLeft o s'.mem j) {r c : Nat}
    (hr : r < height o) (hc : c < width o) : intraOf ii m o s r c = intraOf ii' m o s' r c := by
  have hs := side_bounds o
  by_cases hd : directionalMode m = true
  · rw [intraOf_square _ _ _ _ hd, intraOf_square _ _ _ _ hd]
    refine kernel_congr (legalSide_side o) hd (fun j h1 h2 => ?_) (fun j h1 => ?_) (by omega) (by omega)
    · apply BitVec.eq_of_toNat_eq
      rw [aboveAt_adapt_readPhase _ _ _ h1 h2, aboveAt_adapt_readPhase _ _ _ h1 h2, ha j h1 h2]
    · apply BitVec.eq_of_toNat_eq
      rw [leftAt_adapt_readPhase _ _ _ h1, leftAt_adapt_readPhase _ _ _ h1, hl j h1]
  · apply BitVec.eq_of_toNat_eq
    have hw := width_bounds o
    have hh := height_bounds o
    cases m <;> simp only [directionalMode, not_true] at hd
    · have e1 : ∑ c ∈ Finset.range (width o), contextAbove o s.mem c =
          ∑ c ∈ Finset.range (width o), contextAbove o s'.mem c :=
        Finset.sum_congr rfl fun c hc => ha _ (by omega) (by simp at hc; omega)
      have e2 : ∑ r ∈ Finset.range (height o), contextLeft o s.mem r =
          ∑ r ∈ Finset.range (height o), contextLeft o s'.mem r :=
        Finset.sum_congr rfl fun r hr => hl _ (by simp at hr; omega)
      rw [intraOf_dc, intraOf_dc, dcOf, dcOf, e1, e2]
    · rw [intraOf_v _ _ _ hc, intraOf_v _ _ _ hc, ha _ (by omega) (by omega)]
    · rw [intraOf_h _ _ _ hr, intraOf_h _ _ _ hr, hl _ (by omega)]
    · rw [intraOf_tm _ _ _ hr hc, intraOf_tm _ _ _ hr hc, hl _ (by omega), ha _ (by omega) (by omega),
        ha _ (by omega) (by omega)]

/-- The context is read from the read set. -/
theorem context_congr {ii : Bool} {o : Operands} {m m' : Memory}
    (h : ∀ a ∈ readSet ii o, m.read a = m'.read a) :
    (∀ j : Int, -1 ≤ j → contextAbove o m j = contextAbove o m' j)
      ∧ ∀ j : Nat, contextLeft o m j = contextLeft o m' j := by
  have hw := width_bounds o
  have hh := height_bounds o
  constructor
  · intro j hj
    unfold contextAbove
    split
    · split
      · rename_i hul
        rw [h _ (by simp [readSet, cornerAddr, hul.1, hul.2])]
      · rfl
    · split
      · rename_i hu
        rw [h]
        simp only [readSet, hu, if_true, List.mem_append, List.mem_map, mem_upTo, aboveAddr]
        refine .inl (.inl (.inr ⟨(min j (width o - 1)).toNat, by omega, ?_⟩))
        congr 1
        omega
      · rfl
  · intro j
    unfold contextLeft
    split
    · rename_i hu
      rw [h]
      simp only [readSet, hu, if_true, List.mem_append, List.mem_map, mem_upTo, leftAddr]
      refine .inl (.inl (.inl ⟨min j (height o - 1), by omega, ?_⟩))
      congr 1
      omega
    · rfl

/-- `OUT` is a function of the read set's samples, whatever the scratch arrays held. -/
theorem outOf_congr {ii : Bool} {m : Mode} {o : Operands} {s s' : State}
    (h : ∀ a ∈ readSet ii o, s.mem.read a = s'.mem.read a) {r c : Nat} (hr : r < height o)
    (hc : c < width o) : outOf ii m o s r c = outOf ii m o s' r c := by
  have hx := context_congr h
  have hi := intraOf_congr (ii := ii) (ii' := ii) (m := m) (fun j h1 _ => hx.1 j h1)
    (fun j _ => hx.2 j) hr hc
  cases ii
  · rw [outOf_pred, outOf_pred, hi]
  · apply BitVec.eq_of_toNat_eq
    rw [outOf_iipred _ _ _ hr hc, outOf_iipred _ _ _ hr hc, hi, h]
    have := (mem_writeSet (o := o) (a := addr o.dst o.ds r c)).mpr ⟨r, c, hr, hc, rfl⟩
    simp [readSet, this]

/-! The write phase again. -/

/-- Every destination address has a last writer. -/
theorem lastWriter_exists {o : Operands} {a : Word} (h : a ∈ writeSet o) :
    ∃ r c, r < height o ∧ c < width o ∧ addr o.dst o.ds r c = a ∧ LastWriter o r c := by
  have hb := width_bounds o
  let S := (Finset.range (height o) ×ˢ Finset.range (width o)).filter
    fun p : Nat × Nat => addr o.dst o.ds p.1 p.2 = a
  obtain ⟨r, c, hr, hc, e⟩ := mem_writeSet.mp h
  have hS : S.Nonempty := ⟨(r, c), by simp [S, hr, hc]; exact e⟩
  obtain ⟨p, hp, hmax⟩ := S.exists_max_image (fun p => p.1 * width o + p.2) hS
  simp only [S, Finset.mem_filter, Finset.mem_product, Finset.mem_range] at hp
  refine ⟨p.1, p.2, hp.1.1, hp.1.2, hp.2, fun r' c' h1 h2 h3 => ?_⟩
  have hle := hmax (r', c') (by simp [S, h1, h2, h3]; exact hp.2)
  simp only at hle
  rcases Nat.lt_trichotomy r' p.1 with h | h | h
  · exact .inl h
  · subst h
    exact .inr ⟨rfl, by omega⟩
  · exfalso
    have : (p.1 + 1) * width o ≤ r' * width o := Nat.mul_le_mul_right _ h
    rw [Nat.add_mul] at this
    omega

theorem read_writeBack_congr {o : Operands} {out out' : Block} {m m' : Memory}
    (h : ∀ r c, r < height o → c < width o → out r c = out' r c) (hm : m.wf = true)
    (hm' : m'.wf = true) {a : Word} (ha : a ∈ writeSet o) :
    (writeBack o out m).read a = (writeBack o out' m').read a := by
  obtain ⟨r, c, hr, hc, rfl, hl⟩ := lastWriter_exists ha
  rw [read_writeBack_last _ _ hm hr hc hl, read_writeBack_last _ _ hm' hr hc hl, h r c hr hc]

theorem writeBack_congr {o : Operands} {out out' : Block} {m : Memory}
    (h : ∀ r c, r < height o → c < width o → out r c = out' r c) :
    writeBack o out m = writeBack o out' m := by
  unfold writeBack
  apply List.foldl_ext
  intro a p hp
  rw [h p.1 p.2 (mem_positions.mp hp).1 (mem_positions.mp hp).2]

theorem read_writeBack_outside {o : Operands} {out : Block} {m : Memory} (hm : m.wf = true) {a : Word}
    (ha : a ∉ writeSet o) : (writeBack o out m).read a = m.read a :=
  read_writeBack_other o out hm fun r c h1 h2 e => ha (mem_writeSet.mpr ⟨r, c, h1, h2, e⟩)

/-! The two shapes of a command's result. -/

/-- The selecting bits of an encoded command are its blend bit and its mode code. -/
theorem selectedBy (i : Instr) : SelectedBy i i.ii.toNat i.mode.code := by
  obtain ⟨e, h1, h2, h3⟩ := encodeCmd_toNat i
  have h4 := i.operands.up.toNat_le
  have h5 := i.operands.left.toNat_le
  have h6 := i.operands.right.toNat_le
  have h7 := i.ii.toNat_le
  change (encodeCmd i).toNat / 2 ^ 13 % 2 = _ ∧ (encodeCmd i).toNat % 2 ^ 4 = _
  rw [e]
  omega

theorem pred_result {i : Instr} {s : State} (hm : s.mem.wf = true) (hr : Ready i s)
    (hi : i.ii = false) (P : Nat → Nat → Nat)
    (hP : ∀ r c, r < height i.operands → c < width i.operands →
      (intraOf false i.mode i.operands s r c).toNat = P r c) :
    ∃ t, exec i s = .next t ∧ WritesBlock i.operands P s t := by
  refine ⟨_, exec_of_ready hr, ?_⟩
  rw [hi]
  exact (perform_writes false i.mode i.operands hm).congr hP

theorem iipred_result {i : Instr} {s : State} (hm : s.mem.wf = true) (hr : Ready i s)
    (hi : i.ii = true) (P : Nat → Nat → Nat)
    (hP : ∀ r c, r < height i.operands → c < width i.operands →
      mixed (weight i.mode i.operands r c) (interSample i.operands s.mem r c)
        (intraOf true i.mode i.operands s r c).toNat = P r c) :
    ∃ t, exec i s = .next t ∧ WritesBlock i.operands P s t := by
  refine ⟨_, exec_of_ready hr, ?_⟩
  rw [hi]
  refine (perform_writes true i.mode i.operands hm).congr fun r c h1 h2 => ?_
  rw [outOf_iipred _ _ _ h1 h2, blendW_eq]
  exact hP r c h1 h2

end Sys2Proof.Machine
end

