-- ==== Sys2Proof/Laws/Step.lean ====
section
/-!
SUPPORT. What a step can do, said once (`step_cases`).
-/

namespace Sys2Proof.Machine

/-- A descriptor the decoder rejects names one of the first three causes (30_encoding.md R98). -/
theorem decode_error {d : Descriptor} {c : Cause} (h : decode d = .error c) :
    c = .reservedBits ∨ c = .illegalMode ∨ c = .illegalSize := by
  rw [decode_eq] at h
  grind

theorem step_issue {s : State} {d : Descriptor} {rest : List HostAction}
    (h : s.host = .issue d :: rest) : step s = presentCommand d { s with host := rest } := by
  simp [step, h, hostAction]

/-- Everything a step that answers a next state can have done. -/
theorem step_cases {s t : State} (h : step s = .next t) :
    (s.host = [] ∧ t = s)
      ∨ ∃ a rest, s.host = a :: rest ∧
        (t = { s with host := rest }
          ∨ (∃ d c, a = .issue d ∧ s.err = false ∧ c ≠ .none ∧
              t = raiseFault c { s with host := rest })
          ∨ (∃ d i, a = .issue d ∧ decode d = .ok i ∧ Ready i { s with host := rest } ∧
              t = perform i.ii i.mode i.operands { s with host := rest })
          ∨ (∃ x v, a = .writeSample x v ∧ admits s.cfg x = true ∧
              t = { s with host := rest, mem := s.mem.write x v })
          ∨ (a = .reset ∧ t = applyReset { s with host := rest })) := by
  unfold step at h
  split at h
  · exact .inl ⟨by assumption, by simpa [idle] using h.symm⟩
  rename_i a rest e
  refine .inr ⟨a, rest, e, ?_⟩
  cases a with
  | issue d =>
    simp only [hostAction, presentCommand] at h
    split at h
    · rename_i c hc
      unfold rejectCommand at h
      split at h
      · exact .inl (by simpa using h.symm)
      · rename_i he
        refine .inr (.inl ⟨d, c, rfl, by simpa using he, ?_, by simpa using h.symm⟩)
        rcases decode_error hc with rfl | rfl | rfl <;> simp
    · rename_i i hi
      rcases exec_cases h with h | ⟨he, c, hc, h⟩ | ⟨hr, h⟩
      · exact .inl h.2
      · exact .inr (.inl ⟨d, c, rfl, he, by rcases hc with rfl | rfl | rfl <;> simp, h⟩)
      · exact .inr (.inr (.inl ⟨d, i, rfl, hi, hr, h⟩))
  | writeSample x v =>
    simp only [hostAction, hostWrite, hostAccess] at h
    split at h
    · exact .inr (.inr (.inr (.inl ⟨x, v, rfl, by assumption, by simpa using h.symm⟩)))
    · cases h
  | readSample x =>
    simp only [hostAction, hostRead, hostAccess] at h
    split at h
    · exact .inl (by simpa using h.symm)
    · cases h
  | readStatus => exact .inl (by simpa [hostAction, hostReadStatus] using h.symm)
  | readCap => exact .inl (by simpa [hostAction, hostReadCap] using h.symm)
  | reset => exact .inr (.inr (.inr (.inr ⟨rfl, by simpa [hostAction, hostReset] using h.symm⟩)))

/-! The cells memory lists after a write. -/

theorem mem_write_cases {m : Memory} {a : Word} {v : Sample} {cell : Host.Cell}
    (h : cell ∈ m.write a v) : cell ∈ m ∨ cell = (a.toNat, v) := by
  induction m with
  | nil =>
    simp only [Memory.write] at h
    split at h <;> simp_all
  | cons x m ih =>
    simp only [Memory.write] at h
    grind

theorem mem_writeBack_cases (o : Operands) (out : Block) {m : Memory} {cell : Host.Cell}
    (h : cell ∈ writeBack o out m) : cell ∈ m ∨ ∃ a ∈ writeSet o, cell.1 = a.toNat := by
  have key : ∀ (l : List (Nat × Nat)) (m : Memory),
      cell ∈ l.foldl (fun m p => m.write (destAddr o p.1 p.2) (out p.1 p.2)) m →
        cell ∈ m ∨ ∃ p ∈ l, cell.1 = (destAddr o p.1 p.2).toNat := by
    intro l
    induction l with
    | nil => exact fun m h => .inl h
    | cons p l ih =>
      intro m h
      rcases ih _ h with h | ⟨q, hq, e⟩
      · rcases mem_write_cases h with h | rfl
        · exact .inl h
        · exact .inr ⟨p, by simp, rfl⟩
      · exact .inr ⟨q, by simp [hq], e⟩
  rcases key _ m h with h | ⟨p, hp, e⟩
  · exact .inl h
  · exact .inr ⟨_, List.mem_map_of_mem hp, e⟩

end Sys2Proof.Machine
end

