-- ==== Sys2Proof/Machine/Assembler.lean ====
section
/-!
DEFINITION. The textual form of a command (30_encoding.md R101): from the characters of one line to the five
words it stands for. The engine never sees text; nothing else of the model uses this file. Where R101 is silent on
spacing, notes/assumptions/13.md says what is read.
-/

namespace Sys2Proof.Assembler

/-- The parts of a text between the occurrences of a separator. -/
def parts (sep : Char) : List Char → List (List Char)
  | [] => [[]]
  | x :: rest =>
    match parts sep rest with
    | [] => [[x]]
    | first :: others => if x = sep then [] :: first :: others else (x :: first) :: others

/-- A letter in lower case: mnemonics are case-insensitive. -/
def lower (x : Char) : Char :=
  if 65 ≤ x.toNat ∧ x.toNat ≤ 90 then Char.ofNat (x.toNat + 32) else x

/-- The value of one digit, decimal or hexadecimal. -/
def digit (x : Char) : Option Nat :=
  if 48 ≤ x.toNat ∧ x.toNat ≤ 57 then some (x.toNat - 48)
  else if 97 ≤ (lower x).toNat ∧ (lower x).toNat ≤ 102 then some ((lower x).toNat - 87)
  else none

/-- The value of a sequence of digits, read after `acc`. -/
def digits (base : Nat) : Nat → List Char → Option Nat
  | acc, [] => some acc
  | acc, x :: rest =>
    match digit x with
    | some k => if k < base then digits base (acc * base + k) rest else none
    | none => none

/-- A number, decimal or `0x` hexadecimal. -/
def number : List Char → Option Nat
  | [] => none
  | '0' :: 'x' :: x :: rest => digits 16 0 (x :: rest)
  | x :: rest => digits 10 0 (x :: rest)

/-- An address or a stride that is not negative: a number that fits a word. -/
def word (text : List Char) : Option Word :=
  match number text with
  | some k => if k < 2 ^ 32 then some (BitVec.ofNat 32 k) else none
  | none => none

/-- A stride: `-k` stands for the word `2^32 - k`. -/
def stride : List Char → Option Word
  | '-' :: rest =>
    match number rest with
    | some k => if k < 2 ^ 32 then some (-BitVec.ofNat 32 k) else none
    | none => none
  | text => word text

/-- `II`, from `<op>`. -/
def operation (text : List Char) : Option Bool :=
  if text = ['p', 'r', 'e', 'd'] then some false
  else if text = ['i', 'i', 'p', 'r', 'e', 'd'] then some true
  else none

/-- `<mode>`. -/
def mode (text : List Char) : Option Mode :=
  [(['d', 'c'], Mode.dc), (['v'], .v), (['h'], .h), (['t', 'm'], .tm), (['d', '4', '5'], .d45),
    (['d', '1', '3', '5'], .d135), (['d', '1', '1', '7'], .d117), (['d', '1', '5', '3'], .d153),
    (['d', '2', '7'], .d27), (['d', '6', '3'], .d63)].lookup text

/-- `<bw>` or `<bh>`: the code of a decimal sample count. -/
def size (text : List Char) : Option SizeCode :=
  [(['4'], SizeCode.s4), (['8'], .s8), (['1', '6'], .s16), (['3', '2'], .s32),
    (['6', '4'], .s64)].lookup text

/-- `<addr>:<stride>`. -/
def buffer (text : List Char) : Option (Word × Word) :=
  match parts ':' text with
  | [a, s] =>
    match word a, stride s with
    | some a, some s => some (a, s)
    | _, _ => none
  | _ => none

/-- The flag words that may follow, in this order: `up`, `left`, `right`. A flag not written is 0. -/
def flags (texts : List (List Char)) : Option (Bool × Bool × Bool) :=
  let (up, texts) := match texts with
    | ['u', 'p'] :: rest => (true, rest)
    | other => (false, other)
  let (left, texts) := match texts with
    | ['l', 'e', 'f', 't'] :: rest => (true, rest)
    | other => (false, other)
  match texts with
  | [] => some (up, left, false)
  | [['r', 'i', 'g', 'h', 't']] => some (up, left, true)
  | _ => none

/-- `src=…` and `dst=…`. -/
def buffers (a b : List Char) : Option ((Word × Word) × (Word × Word)) :=
  match a, b with
  | 's' :: 'r' :: 'c' :: '=' :: a, 'd' :: 's' :: 't' :: '=' :: b =>
    match buffer a, buffer b with
    | some a, some b => some (a, b)
    | _, _ => none
  | _, _ => none

/-- What stands after the mnemonic, without its spaces. -/
def operands (text : List Char) : Option Operands :=
  match parts ',' text with
  | shape :: a :: b :: rest =>
    match parts 'x' shape, buffers a b, flags rest with
    | [w, h], some ((src, ss), (dst, ds)), some (up, left, right) =>
      match size w, size h with
      | some bwl, some bhl => some ⟨bwl, bhl, up, left, right, src, ss, dst, ds⟩
      | _, _ => none
    | _, _, _ => none
  | _ => none

/-- The command a line of text names. Its shape may still be one that the engine rejects. -/
def parse (line : List Char) : Option Instr :=
  let line := line.dropWhile (· = ' ')
  let mnemonic := (line.takeWhile (· ≠ ' ')).map lower
  let rest := (line.dropWhile (· ≠ ' ')).filter (· ≠ ' ')
  match parts '.' mnemonic with
  | [op, m] =>
    match operation op, mode m, operands rest with
    | some ii, some m, some o => some (instrOf ii m o)
    | _, _, _ => none
  | _ => none

/-- The five words a line of text encodes as (R101). -/
def assemble (line : List Char) : Option Descriptor := (parse line).map encode

end Sys2Proof.Assembler
end

