-- ==== Sys2Proof/Tests/Slice0.lean ====
section
/-!
SUPPORT. Tests and witnesses. Expected values are those of spec/ (95_test_vectors.md unless another file is named).
Each `witness_…` shows that the hypotheses of the obligation it names can be met together.
-/

namespace Sys2Proof.Tests

/- One theorem after the other: many small theorems waiting on each other take a thread each. -/
set_option Elab.async false

open Sys2Proof.Machine

/-! ## Well-formedness -/

/-- A command of the shape with the given size codes. -/
def shaped (bwl bhl : SizeCode) : Instr := .predDc ⟨bwl, bhl, true, true, false, 1, 2, 3, 4⟩

/-- 4×16, 1:4 (section 2.1). -/
theorem test_wellFormed_refuses_1_to_4 : (shaped .s4 .s16).wellFormed = false := by decide

/-- 16×4, 4:1 (section 2.1). -/
theorem test_wellFormed_refuses_4_to_1 : (shaped .s16 .s4).wellFormed = false := by decide

/-- The thirteen legal size pairs of section 2.1. -/
theorem test_wellFormed_thirteen_shapes :
    [SizeCode.s4, .s8, .s16, .s32, .s64].map (fun bwl =>
      ([SizeCode.s4, .s8, .s16, .s32, .s64].filter fun bhl => (shaped bwl bhl).wellFormed).map SizeCode.code) =
    [[0, 1], [0, 1, 2], [1, 2, 3], [2, 3, 4], [3, 4]] := by decide

/-! ## Decoding

The words are written bit by bit from 30_encoding.md R91: reserved, II, RIGHT LEFT UP, BHL, BWL, MODE. -/

/-- The operands of an 8×16 command with UP and RIGHT. -/
def o816 : Operands := ⟨.s8, .s16, true, false, true, 0x10, 0x20, 0x30, 0x40⟩

/-- The five words of a command with operands `o816`, word 0 given. -/
def words (cmd : Word) : Descriptor := ⟨cmd, 0x10, 0x20, 0x30, 0x40⟩

theorem test_decode_predDc :
    decode (words 0b00000000000000000001010100010000) = .ok (.predDc o816) := by decide

theorem test_decode_predV :
    decode (words 0b00000000000000000001010100010001) = .ok (.predV o816) := by decide

theorem test_decode_predH :
    decode (words 0b00000000000000000001010100010010) = .ok (.predH o816) := by decide

theorem test_decode_predTm :
    decode (words 0b00000000000000000001010100010011) = .ok (.predTm o816) := by decide

theorem test_decode_predD45 :
    decode (words 0b00000000000000000001010100010100) = .ok (.predD45 o816) := by decide

theorem test_decode_predD135 :
    decode (words 0b00000000000000000001010100010101) = .ok (.predD135 o816) := by decide

theorem test_decode_predD117 :
    decode (words 0b00000000000000000001010100010110) = .ok (.predD117 o816) := by decide

theorem test_decode_predD153 :
    decode (words 0b00000000000000000001010100010111) = .ok (.predD153 o816) := by decide

theorem test_decode_predD27 :
    decode (words 0b00000000000000000001010100011000) = .ok (.predD27 o816) := by decide

theorem test_decode_predD63 :
    decode (words 0b00000000000000000001010100011001) = .ok (.predD63 o816) := by decide

theorem test_decode_iipredDc :
    decode (words 0b00000000000000000011010100010000) = .ok (.iipredDc o816) := by decide

theorem test_decode_iipredV :
    decode (words 0b00000000000000000011010100010001) = .ok (.iipredV o816) := by decide

theorem test_decode_iipredH :
    decode (words 0b00000000000000000011010100010010) = .ok (.iipredH o816) := by decide

theorem test_decode_iipredTm :
    decode (words 0b00000000000000000011010100010011) = .ok (.iipredTm o816) := by decide

theorem test_decode_iipredD45 :
    decode (words 0b00000000000000000011010100010100) = .ok (.iipredD45 o816) := by decide

theorem test_decode_iipredD135 :
    decode (words 0b00000000000000000011010100010101) = .ok (.iipredD135 o816) := by decide

theorem test_decode_iipredD117 :
    decode (words 0b00000000000000000011010100010110) = .ok (.iipredD117 o816) := by decide

theorem test_decode_iipredD153 :
    decode (words 0b00000000000000000011010100010111) = .ok (.iipredD153 o816) := by decide

theorem test_decode_iipredD27 :
    decode (words 0b00000000000000000011010100011000) = .ok (.iipredD27 o816) := by decide

theorem test_decode_iipredD63 :
    decode (words 0b00000000000000000011010100011001) = .ok (.iipredD63 o816) := by decide

/-- The rows of section 2.1 that fault in the decoder. -/
theorem test_decode_faults :
    [0x0000000A, 0x0000000F, 0x00000050, 0x00000100, 0x00000020, 0x00004000, 0x8000000A, 0x0000207F].map
      (fun cmd => decode (words cmd)) =
    [.error .illegalMode, .error .illegalMode, .error .illegalSize, .error .illegalSize,
      .error .illegalSize, .error .reservedBits, .error .reservedBits, .error .illegalMode] := by decide

/-- `0x00000249` is `pred.d63 64x64`, no flags (section 2.1). -/
theorem test_decode_largest :
    decode (words 0x00000249) =
      .ok (.predD63 ⟨.s64, .s64, false, false, false, 0x10, 0x20, 0x30, 0x40⟩) := by decide

/-- The numbering of the opcode table: word 0 in the low 32 bits, absent words 0. -/
theorem test_decodeTableWord :
    decodeTableWord 32 0x00002000 =
        some (.iipredDc ⟨.s4, .s4, false, false, false, 0, 0, 0, 0⟩)
      ∧ decodeTableWord 160 0x0000000500000004000000030000000200000C14 =
        some (.predD45 ⟨.s8, .s4, true, true, false, 2, 3, 4, 5⟩)
      ∧ decodeTableWord 32 0x0000000A = none := by decide

/-- The example of 30_encoding.md R101, from text. -/
theorem test_assemble_example :
    Assembler.assemble "pred.d45 8x4, src=0x1000:64, dst=0x1000:64, up, left".toList =
      some ⟨0x00000C14, 0x1000, 0x40, 0x1000, 0x40⟩ := by decide +kernel

/-- A negative stride, a mnemonic in upper case, all flags (R101). -/
theorem test_assemble_negative_stride :
    Assembler.assemble "IIPRED.V  8x4, src=4096:-16, dst=0x30:8, up, left, right".toList =
      some ⟨0x00003C11, 0x1000, 0xFFFFFFF0, 0x30, 8⟩ := by decide +kernel

/-! ## One step of each command, on context C4 (section 2.4) -/

/-- Memory of section 2.2, and an inter block of 100 at 0x200. -/
def c4 : Memory :=
  [(0x100, 5), (0x101, 10), (0x102, 20), (0x103, 30), (0x104, 40),
    (0x110, 50), (0x120, 60), (0x130, 70), (0x140, 80)]
  ++ (List.range 16).map fun k => (0x200 + k, 100)

/-- The 4×4 command on that context. -/
def o4 : Operands := ⟨.s4, .s4, true, true, false, 0x111, 16, 0x200, 4⟩

/-- The state with that memory. -/
def s4 : State := { State.reset with mem := c4 }

/-- The destination block after a command, row by row. -/
def block (o : Operands) (r : Host.Outcome State Fault Refusal) : List (List Nat) :=
  match r with
  | .next t => (List.range (height o)).map fun r =>
      (List.range (width o)).map fun c => (t.mem.read (destAddr o r c)).toNat
  | _ => []

theorem test_predDc : block o4 (exec (.predDc o4) s4) =
    [[45, 45, 45, 45], [45, 45, 45, 45], [45, 45, 45, 45], [45, 45, 45, 45]] := by decide +kernel

theorem test_predV : block o4 (exec (.predV o4) s4) =
    [[10, 20, 30, 40], [10, 20, 30, 40], [10, 20, 30, 40], [10, 20, 30, 40]] := by decide +kernel

theorem test_predH : block o4 (exec (.predH o4) s4) =
    [[50, 50, 50, 50], [60, 60, 60, 60], [70, 70, 70, 70], [80, 80, 80, 80]] := by decide +kernel

theorem test_predTm : block o4 (exec (.predTm o4) s4) =
    [[55, 65, 75, 85], [65, 75, 85, 95], [75, 85, 95, 105], [85, 95, 105, 115]] := by decide +kernel

theorem test_predD45 : block o4 (exec (.predD45 o4) s4) =
    [[40, 43, 50, 48], [57, 60, 56, 52], [70, 64, 60, 56], [72, 68, 64, 60]] := by decide +kernel

theorem test_predD135 : block o4 (exec (.predD135 o4) s4) =
    [[5, 10, 20, 30], [50, 5, 10, 20], [60, 50, 5, 10], [70, 60, 50, 5]] := by decide +kernel

theorem test_predD117 : block o4 (exec (.predD117 o4) s4) =
    [[8, 15, 25, 35], [5, 10, 20, 30], [50, 8, 15, 25], [60, 5, 10, 20]] := by decide +kernel

theorem test_predD153 : block o4 (exec (.predD153 o4) s4) =
    [[28, 5, 10, 20], [55, 50, 28, 5], [65, 60, 55, 50], [75, 70, 65, 60]] := by decide +kernel

theorem test_predD27 : block o4 (exec (.predD27 o4) s4) =
    [[47, 50, 65, 70], [65, 70, 75, 80], [75, 80, 78, 79], [78, 79, 79, 79]] := by decide +kernel

theorem test_predD63 : block o4 (exec (.predD63 o4) s4) =
    [[33, 25, 35, 38], [50, 30, 40, 39], [25, 35, 38, 39], [30, 40, 39, 39]] := by decide +kernel

theorem test_iipredDc : block o4 (exec (.iipredDc o4) s4) =
    [[72, 72, 72, 72], [72, 72, 72, 72], [72, 72, 72, 72], [72, 72, 72, 72]] := by decide +kernel

theorem test_iipredV : block o4 (exec (.iipredV o4) s4) =
    [[55, 60, 65, 70], [67, 71, 75, 78], [73, 76, 79, 82], [75, 78, 81, 84]] := by decide +kernel

theorem test_iipredH : block o4 (exec (.iipredH o4) s4) =
    [[75, 82, 85, 86], [80, 85, 88, 89], [85, 89, 91, 92], [90, 93, 94, 95]] := by decide +kernel

theorem test_iipredTm : block o4 (exec (.iipredTm o4) s4) =
    [[77, 82, 87, 92], [82, 87, 92, 97], [87, 92, 97, 102], [92, 97, 102, 107]] := by decide +kernel

theorem test_iipredD45 : block o4 (exec (.iipredD45 o4) s4) =
    [[70, 76, 80, 80], [82, 85, 85, 85], [88, 88, 88, 87], [89, 90, 90, 89]] := by decide +kernel

theorem test_iipredD135 : block o4 (exec (.iipredD135 o4) s4) =
    [[52, 55, 60, 65], [75, 65, 67, 71], [80, 82, 71, 73], [85, 85, 85, 74]] := by decide +kernel

theorem test_iipredD117 : block o4 (exec (.iipredD117 o4) s4) =
    [[54, 60, 66, 71], [63, 67, 72, 76], [83, 71, 74, 78], [87, 72, 75, 78]] := by decide +kernel

theorem test_iipredD153 : block o4 (exec (.iipredD153 o4) s4) =
    [[64, 63, 69, 74], [79, 82, 77, 72], [84, 86, 86, 86], [89, 90, 90, 89]] := by decide +kernel

theorem test_iipredD27 : block o4 (exec (.iipredD27 o4) s4) =
    [[73, 80, 88, 90], [84, 89, 92, 94], [89, 93, 93, 94], [90, 93, 94, 94]] := by decide +kernel

theorem test_iipredD63 : block o4 (exec (.iipredD63 o4) s4) =
    [[66, 65, 71, 73], [80, 75, 79, 79], [74, 79, 81, 82], [77, 82, 83, 83]] := by decide +kernel

/-- `pred.dc` with one edge or none (section 2.4; S1). -/
theorem test_predDc_edges :
    (block { o4 with left := false } (exec (.predDc { o4 with left := false }) s4)).head? = some [25, 25, 25, 25]
      ∧ (block { o4 with up := false } (exec (.predDc { o4 with up := false }) s4)).head? = some [65, 65, 65, 65]
      ∧ (block { o4 with up := false, left := false }
          (exec (.predDc { o4 with up := false, left := false }) s4)).head? = some [128, 128, 128, 128] := by
  decide +kernel

/-- `pred.tm` without `left`, saturating (section 2.4: `129 + a - 127`). -/
theorem test_predTm_saturates :
    (block { o4 with left := false } (exec (.predTm { o4 with left := false })
      { s4 with mem := [(0x101, 10), (0x102, 20), (0x103, 254), (0x104, 255)] })).head? =
      some [12, 22, 255, 255] := by decide +kernel

/-- The buffers of program P2: the context of V-NS1. -/
def p2 : Memory :=
  [(0x2000, 5), (0x2001, 10), (0x2002, 20), (0x2003, 30), (0x2004, 40), (0x2005, 50), (0x2006, 60),
    (0x2007, 70), (0x2008, 80), (0x2020, 90), (0x2040, 100), (0x2060, 110), (0x2080, 120)]

/-- The 8×4 block of P2, in place. -/
def o84 : Operands := ⟨.s8, .s4, true, true, false, 0x2021, 32, 0x2021, 32⟩

/-- V-NS1 (section 2.6): a non-square directional block, in place. -/
theorem test_predD45_nonsquare :
    block o84 (exec (.predD45 o84) { State.reset with mem := p2 }) =
      [[60, 57, 60, 64, 70, 77, 85, 84], [83, 80, 78, 80, 84, 90, 89, 87],
        [100, 92, 90, 91, 95, 93, 91, 89], [106, 100, 99, 100, 98, 96, 94, 92]] := by decide +kernel

/-- `pred.d27 8x4` and `pred.d63 8x4` (section 2.6). -/
theorem test_predD27_nonsquare :
    block o84 (exec (.predD27 o84) { State.reset with mem := p2 }) =
      [[73, 70, 68, 73, 77, 85, 120, 120], [93, 92, 88, 93, 120, 120, 120, 120],
        [106, 107, 120, 120, 120, 120, 120, 120], [120, 120, 120, 120, 120, 120, 120, 120]] := by
  decide +kernel

theorem test_predD63_nonsquare :
    block o84 (exec (.predD63 o84) { State.reset with mem := p2 }) =
      [[47, 43, 45, 45, 55, 65, 75, 78], [70, 59, 57, 50, 60, 70, 80, 79],
        [78, 64, 45, 55, 65, 75, 78, 79], [87, 73, 50, 60, 70, 80, 79, 79]] := by decide +kernel

/-- An aliasing destination (section 2.2): the later position wins. -/
theorem test_predV_aliasing :
    (match exec (.predV ⟨.s4, .s4, true, false, false, 0x310, 16, 0x320, 2⟩)
        { State.reset with mem := [(0x300, 9), (0x301, 8), (0x302, 7), (0x303, 6)] } with
      | .next t => (List.range 10).map fun k => (t.mem.read (BitVec.ofNat 32 (0x320 + k))).toNat
      | _ => []) = [9, 8, 9, 8, 9, 8, 9, 8, 7, 6] := by decide +kernel

/-- The addresses of section 2.2. -/
theorem test_addresses :
    addr 0x111 16 (-1) (-1) = 0x100 ∧ addr 0x200 0xFFFFFFF0 (-1) 0 = 0x210
      ∧ addr 0 16 (-1) (-1) = 0xFFFFFFEF ∧ addr 0xFFFFFFFE 1 0 3 = 1 := by decide

/-- The rows of section 2.3. -/
theorem test_scale :
    [(0, 0), (1, 0), (510, 0), (170, 1), (3, 4), (6, 10), (881, 41), (1020, 63), (16575, 63), (3784, 21)].map
      (fun p => iscaleRound p.1 p.2) = [0, 1, 255, 57, 1, 1, 20, 16, 255, 164] := by decide +kernel

/-- The values of `BlendW` in section 2.7. -/
theorem test_blend :
    blendW 128 100 45 = 72 ∧ blendW 93 100 10 = 67 ∧ blendW 128 255 0 = 127 ∧ blendW 67 0 255 = 67
      ∧ blendW 67 255 0 = 188 := by decide

/-! ## Faults and the host (section 2.8) -/

/-- ERR and STATUS after one step. -/
def statusAfter (s : State) : Option Word :=
  match step s with
  | .next t => some (statusWord t)
  | _ => none

/-- A state about to be presented the command with word 0 `cmd`. -/
def presented (cmd : Word) : State := { State.reset with host := [.issue (words cmd)] }

theorem test_status_after_faults :
    statusAfter (presented 0x0000040B) = some 0x00000005
      ∧ statusAfter { presented 0x00002000 with cfg := ⟨false, [⟨0, 0xFFFFFFFF⟩]⟩ } = some 0x00000009
      ∧ statusAfter { presented 0x0000207F with cfg := ⟨false, [⟨0, 0xFFFFFFFF⟩]⟩ } = some 0x00000005 := by
  decide +kernel

/-- `MemAdmit(a) = (0x5000 <= a <= 0x50FF)`. -/
def window : Config := ⟨true, [⟨0x5000, 0x50FF⟩]⟩

/-- The block at 0x5000, in place, with or without the row above. -/
def atWindow (up : Bool) : Operands := ⟨.s4, .s4, up, false, false, 0x5000, 16, 0x5000, 16⟩

/-- With `up` the read set leaves the window; without, the command executes and writes 127. -/
theorem test_access :
    (match exec (.predV (atWindow true)) { State.reset with cfg := window } with
      | .next t => (statusWord t, t.mem)
      | _ => (0, [])) = (0x0000000B, [])
      ∧ block (atWindow false) (exec (.predV (atWindow false)) { State.reset with cfg := window }) =
        [[127, 127, 127, 127], [127, 127, 127, 127], [127, 127, 127, 127], [127, 127, 127, 127]] := by
  decide +kernel

/-- The state a descriptor is presented in by `withFetchWord` runs it. -/
theorem test_withFetchWord :
    (match step (State.reset.withFetchWord 32 0x00000000) with
      | .next t => (t.mem.read 0).toNat
      | _ => 0) = 128 := by decide +kernel



/-! ## Witnesses: encoding and the step -/

theorem witness_DecodeOfEncodeIsTheCommand :
    ∀ p ∈ [(SizeCode.s4, SizeCode.s4), (.s8, .s4), (.s4, .s8), (.s64, .s32), (.s32, .s64), (.s64, .s64)],
      (shaped p.1 p.2).wellFormed = true := by decide

theorem witness_EncodeOfDecodeIsTheDescriptor :
    decode (words 0x00001E43) =
      .ok (.predTm ⟨.s64, .s64, true, true, true, 0x10, 0x20, 0x30, 0x40⟩) := by decide

theorem witness_DecodedOperandsAreTheFields :
    decode (words 0x00002C11) =
      .ok (.iipredV ⟨.s8, .s4, true, true, false, 0x10, 0x20, 0x30, 0x40⟩) := by decide

theorem witness_StepRunsTheDecodedCommand :
    (presented 0x00000C14).host = .issue (words 0x00000C14) :: []
      ∧ decode (words 0x00000C14) =
        .ok (.predD45 ⟨.s8, .s4, true, true, false, 0x10, 0x20, 0x30, 0x40⟩) := by decide

/-- A property of every word of a list, checked word by word. -/
theorem all_of {l : List Word} {p : Word → Prop} [DecidablePred p]
    (h : l.all (fun a => decide (p a)) = true) : ∀ a ∈ l, p a := by
  simpa using h

/-- ERR and CAUSE after one step, if the machine went on. -/
def causeAfter (cfg : Config) (cmd : Word) : Option (Bool × Cause) :=
  match step { presented cmd with cfg := cfg } with
  | .next t => some (t.err, t.cause)
  | _ => none

/-- Without the blender. -/
def plain : Config := ⟨false, [⟨0, 0xFFFFFFFF⟩]⟩

/-- The hypotheses common to all clauses, for every word 0. -/
theorem witness_FirstFailingCheckDecidesTheFault (cfg : Config) (cmd : Word) :
    { presented cmd with cfg := cfg }.host = .issue (words cmd) :: []
      ∧ { presented cmd with cfg := cfg }.err = false := ⟨rfl, rfl⟩

/-- Clause 1 at its lowest and highest bit, and with every later check failing too. -/
theorem witness_FirstFailing_reserved :
    ∀ cmd ∈ [0x00004000, 0x80000000, 0xFFFFFFFF],
      cmd.toNat / 2 ^ 14 ≠ 0 ∧ causeAfter plain cmd = some (true, .reservedBits) :=
  all_of (by decide)

/-- Clause 2 at modes 10 and 15, the highest word without reserved bits among them. -/
theorem witness_FirstFailing_mode :
    ∀ cmd ∈ [(0x0000000A : Word), 0x0000000F, 0x00003FFF],
      cmd.toNat / 2 ^ 14 = 0 ∧ 10 ≤ cmd.toNat % 16 ∧ causeAfter plain cmd = some (true, .illegalMode) :=
  all_of (by decide)

/-- Clause 3: size codes 5 and 7, and shapes 1:4 and 4:1. -/
theorem witness_FirstFailing_size :
    ∀ cmd ∈ [(0x00002059 : Word), 0x00002289, 0x00003FF9, 0x00002100, 0x00002020],
      cmd.toNat / 2 ^ 14 = 0 ∧ cmd.toNat % 16 < 10 ∧ causeAfter plain cmd = some (true, .illegalSize) :=
  all_of (by decide)

/-- Clause 4: the smallest command, the largest shape and a 2:1 shape. -/
theorem witness_FirstFailing_blender :
    ∀ cmd ∈ [(0x00002000 : Word), 0x00002249, 0x00002011],
      cmd.toNat / 2 ^ 13 % 2 = 1 ∧ plain.hasII = false
        ∧ causeAfter plain cmd = some (true, .unsupported) :=
  all_of (by decide)

/-- Clause 5, an absent address: 0xF3, the last address of the write set, is missing, or nothing is. -/
theorem witness_FirstFailing_access :
    causeAfter ⟨true, [⟨0x30, 0xF2⟩]⟩ 0x00000000 = some (true, .access)
      ∧ causeAfter ⟨true, [⟨0x30, 0xF3⟩]⟩ 0x00000000 = some (false, .none) := by decide +kernel

/-- Clause 5, everything passes: PRED without the blender, IIPRED with it. -/
theorem witness_FirstFailing_passes :
    causeAfter plain 0x00000009 = some (false, .none)
      ∧ causeAfter window 0x00002009 = some (true, .access)
      ∧ causeAfter Config.reset 0x00002009 = some (false, .none) := by decide +kernel

/-- A halted engine that is presented a command. -/
def halted : State := { presented 0x00000000 with err := true, cause := .access }

theorem witness_HaltedEngineDiscardsTheCommand :
    halted.host = .issue (words 0x00000000) :: [] ∧ halted.err = true := by decide

theorem witness_FaultChangesOnlyErrAndCause :
    step (presented 0x0000000A) =
        .next { State.reset with err := true, cause := .illegalMode, host := [] }
      ∧ (presented 0x0000000A).err = false := ⟨rfl, rfl⟩

theorem witness_OnlyResetLeavesTheFaultedState :
    step halted = .next { halted with host := [] } ∧ halted.err = true
      ∧ step { halted with host := [.reset] } = .next { State.reset with host := [] } := ⟨rfl, rfl, rfl⟩

theorem witness_ResetClearsErrAndCause :
    { halted with host := [.reset, .readStatus] }.host = .reset :: [.readStatus] := rfl

/-- One host access for each clause, in a window of existing addresses. -/
theorem witness_HostAccessesOneSample :
    (∀ a ∈ [(0x5000 : Word), 0x50FF], admits window a = true)
      ∧ (∀ a ∈ [(0x4FFF : Word), 0x5100, 0xFFFFFFFF], admits window a = false)
      ∧ s4.mem.wf = true
      ∧ { s4 with host := [.writeSample 0x5000 7] }.host = .writeSample 0x5000 7 :: []
      ∧ { s4 with host := [.readSample 0x5000] }.host = .readSample 0x5000 :: [] :=
  ⟨all_of (by decide), all_of (by decide), by decide, rfl, rfl⟩

theorem witness_StatusReadsAndIdlingHaveNoEffect :
    { halted with host := [.readStatus] }.host = .readStatus :: []
      ∧ { halted with host := [.readCap] }.host = .readCap :: []
      ∧ State.reset.host = [] := ⟨rfl, rfl, rfl⟩

/-- A state that meets the invariant with ERR 0, and one for each cause with ERR 1. -/
theorem witness_StatusAndCapFields :
    State.reset.Inv ∧ State.reset.err = false
      ∧ ∀ c ∈ [Cause.reservedBits, .illegalMode, .illegalSize, .unsupported, .access],
        { State.reset with err := true, cause := c }.Inv := by
  simp [State.Inv, State.reset, Memory.wf, Memory.wfFrom]

/-! ## Witnesses: commands that complete -/

/-- On a machine with every address and the blender, every well-formed command is ready, whatever its
operands. -/
theorem ready_of_reset_config (i : Instr) (hi : i.wellFormed = true) {s : State}
    (he : s.err = false) (hc : s.cfg = Config.reset) : Ready i s := by
  refine ⟨he, hi, fun _ => by rw [hc]; rfl, fun a _ => ?_⟩
  have ha := a.isLt
  rw [hc]
  simp only [admits, Config.reset, List.any_cons, List.any_nil, Bool.or_false, Bool.and_eq_true,
    decide_eq_true_eq]
  constructor
  · simp
  · rw [show (0xFFFFFFFF : Word).toNat = 4294967295 from rfl]
    omega

theorem s4_wf : s4.mem.wf = true := by decide

/-- A state that meets the invariant and in which a command is about to run. -/
def running (i : Instr) : State := { s4 with host := [.issue (encode i)] }

theorem running_steps (i : Instr) (h : decode (encode i) = .ok i) : ∃ t, step (running i) = .next t := by
  rw [step_issue rfl, presentCommand, h]
  exact exec_next _ _

theorem witness_EveryStepKeepsTheInvariant :
    (running (.predD45 o4)).Inv ∧ ∃ t, step (running (.predD45 o4)) = .next t := by
  refine ⟨⟨by decide, by decide, by decide⟩, ?_⟩
  exact running_steps _ (by decide)

theorem witness_ParametersNeverChange : ∃ t, step (running (.predDc o4)) = .next t :=
  running_steps _ (by decide)

theorem witness_PredDcWritesTheMean : s4.mem.wf = true ∧ Ready (.predDc o4) s4 :=
  ⟨s4_wf, ready_of_reset_config _ (by decide) rfl rfl⟩

theorem witness_PredVCopiesTheRowAbove : s4.mem.wf = true ∧ Ready (.predV o4) s4 :=
  ⟨s4_wf, ready_of_reset_config _ (by decide) rfl rfl⟩

theorem witness_PredHCopiesTheLeftColumn : s4.mem.wf = true ∧ Ready (.predH o4) s4 :=
  ⟨s4_wf, ready_of_reset_config _ (by decide) rfl rfl⟩

theorem witness_PredTmClampsTheSum : s4.mem.wf = true ∧ Ready (.predTm o4) s4 :=
  ⟨s4_wf, ready_of_reset_config _ (by decide) rfl rfl⟩

theorem witness_PredD45FillsAntiDiagonals : s4.mem.wf = true ∧ Ready (.predD45 o4) s4 :=
  ⟨s4_wf, ready_of_reset_config _ (by decide) rfl rfl⟩

theorem witness_PredD135CopiesAlongDiagonals : s4.mem.wf = true ∧ Ready (.predD135 o4) s4 :=
  ⟨s4_wf, ready_of_reset_config _ (by decide) rfl rfl⟩

theorem witness_PredD117PropagatesTwoRowsDown : s4.mem.wf = true ∧ Ready (.predD117 o4) s4 :=
  ⟨s4_wf, ready_of_reset_config _ (by decide) rfl rfl⟩

theorem witness_PredD153PropagatesTwoColumnsRight : s4.mem.wf = true ∧ Ready (.predD153 o4) s4 :=
  ⟨s4_wf, ready_of_reset_config _ (by decide) rfl rfl⟩

theorem witness_PredD27ProjectsTheLeftColumn : s4.mem.wf = true ∧ Ready (.predD27 o4) s4 :=
  ⟨s4_wf, ready_of_reset_config _ (by decide) rfl rfl⟩

theorem witness_PredD63ProjectsTheRowAbove : s4.mem.wf = true ∧ Ready (.predD63 o4) s4 :=
  ⟨s4_wf, ready_of_reset_config _ (by decide) rfl rfl⟩

theorem witness_IipredDcAveragesWithTheMean : s4.mem.wf = true ∧ Ready (.iipredDc o4) s4 :=
  ⟨s4_wf, ready_of_reset_config _ (by decide) rfl rfl⟩

theorem witness_IipredVBlendsByRow : s4.mem.wf = true ∧ Ready (.iipredV o4) s4 :=
  ⟨s4_wf, ready_of_reset_config _ (by decide) rfl rfl⟩

theorem witness_IipredHBlendsByColumn : s4.mem.wf = true ∧ Ready (.iipredH o4) s4 :=
  ⟨s4_wf, ready_of_reset_config _ (by decide) rfl rfl⟩

theorem witness_IipredTmAveragesWithTheClampedSum : s4.mem.wf = true ∧ Ready (.iipredTm o4) s4 :=
  ⟨s4_wf, ready_of_reset_config _ (by decide) rfl rfl⟩

theorem witness_IipredD45BlendsByBothAxes : s4.mem.wf = true ∧ Ready (.iipredD45 o4) s4 :=
  ⟨s4_wf, ready_of_reset_config _ (by decide) rfl rfl⟩

theorem witness_IipredD135BlendsByTheNearerEdge : s4.mem.wf = true ∧ Ready (.iipredD135 o4) s4 :=
  ⟨s4_wf, ready_of_reset_config _ (by decide) rfl rfl⟩

theorem witness_IipredD117BlendsMostlyByRow : s4.mem.wf = true ∧ Ready (.iipredD117 o4) s4 :=
  ⟨s4_wf, ready_of_reset_config _ (by decide) rfl rfl⟩

theorem witness_IipredD153BlendsMostlyByColumn : s4.mem.wf = true ∧ Ready (.iipredD153 o4) s4 :=
  ⟨s4_wf, ready_of_reset_config _ (by decide) rfl rfl⟩

theorem witness_IipredD27BlendsMostlyByColumn : s4.mem.wf = true ∧ Ready (.iipredD27 o4) s4 :=
  ⟨s4_wf, ready_of_reset_config _ (by decide) rfl rfl⟩

theorem witness_IipredD63BlendsMostlyByRow : s4.mem.wf = true ∧ Ready (.iipredD63 o4) s4 :=
  ⟨s4_wf, ready_of_reset_config _ (by decide) rfl rfl⟩

/-! ## Witnesses: faults, frames, and relations between commands -/

theorem witness_IipredWithoutBlenderIsUnsupported :
    { s4 with cfg := plain }.err = false ∧ (Instr.iipredD63 o4).wellFormed = true
      ∧ (Instr.iipredD63 o4).ii = true ∧ plain.hasII = false := by decide

/-- The command whose row above is just outside the window, and the one without it. -/
theorem witness_AdmissionDecidesTheAccessFault :
    (Instr.predV (atWindow true)).wellFormed = true
      ∧ (∃ a ∈ readSet false (atWindow true) ++ writeSet (atWindow true), admits window a = false)
      ∧ (∀ a ∈ readSet false (atWindow false) ++ writeSet (atWindow false), admits window a = true)
      ∧ (∃ a ∈ readSet true { atWindow false with dst := 0x50F0 } ++
          writeSet { atWindow false with dst := 0x50F0 }, admits window a = false) :=
  ⟨by decide, ⟨0x4FF0, by decide, by decide⟩, all_of (by decide), ⟨0x5100, by decide, by decide⟩⟩

theorem witness_CommandsKeepEverythingElse :
    s4.mem.wf = true ∧ (∃ t, exec (.iipredD27 o4) s4 = .next t) ∧ Ready (.iipredD27 o4) s4
      ∧ (∃ t, exec (.predV (atWindow true)) { s4 with cfg := window } = .next t)
      ∧ ¬ Ready (.predV (atWindow true)) { s4 with cfg := window } := by
  refine ⟨s4_wf, exec_next _ _, ready_of_reset_config _ (by decide) rfl rfl, exec_next _ _, ?_⟩
  rw [ready_iff]
  decide

theorem witness_CommandsWriteOnlyTheirScratch :
    Ready (.iipredD45 o4) s4 ∧ ∃ t, exec (.iipredD45 o4) s4 = .next t :=
  ⟨ready_of_reset_config _ (by decide) rfl rfl, exec_next _ _⟩

theorem witness_ScratchIsNotObservable : ∃ t, step (running (.iipredD63 o4)) = .next t :=
  running_steps _ (by decide)

/-- `s4` with other scratch arrays and one more sample, outside every read set of `o4`. -/
def s4' : State :=
  { s4 with mem := c4 ++ [(0x300, 1)], scratch := { Scratch.reset with left := Vector.replicate 64 9 } }

theorem witness_ResultDependsOnTheReadSetAlone :
    s4.mem.wf = true ∧ s4'.mem.wf = true ∧ Ready (.iipredD63 o4) s4 ∧ Ready (.iipredD63 o4) s4'
      ∧ (∀ a ∈ readSet true o4, s4.mem.read a = s4'.mem.read a)
      ∧ (∃ t, exec (.iipredD63 o4) s4 = .next t) ∧ ∃ t, exec (.iipredD63 o4) s4' = .next t :=
  ⟨s4_wf, by decide, ready_of_reset_config _ (by decide) rfl rfl,
    ready_of_reset_config _ (by decide) rfl rfl, all_of (by decide +kernel), exec_next _ _, exec_next _ _⟩

theorem witness_PredIsIdempotent :
    s4.mem.wf = true ∧ (Instr.predD27 o4).ii = false ∧ Ready (.predD27 o4) s4
      ∧ (∀ a ∈ readSet false o4, a ∉ writeSet o4)
      ∧ ∃ t u, exec (.predD27 o4) s4 = .next t ∧ exec (.predD27 o4) t = .next u := by
  obtain ⟨t, ht⟩ := exec_next (.predD27 o4) s4
  obtain ⟨u, hu⟩ := exec_next (.predD27 o4) t
  exact ⟨s4_wf, rfl, ready_of_reset_config _ (by decide) rfl rfl, all_of (by decide +kernel), t, u, ht, hu⟩

/-- A second command, beside the first. -/
def o4b : Operands := ⟨.s8, .s4, true, false, false, 0x511, 16, 0x600, 8⟩

theorem witness_IndependentCommandsCommute :
    s4.mem.wf = true ∧ Ready (.iipredD45 o4) s4 ∧ Ready (.predV o4b) s4
      ∧ (∀ a ∈ writeSet o4, a ∉ readSet false o4b ∧ a ∉ writeSet o4b)
      ∧ (∀ a ∈ writeSet o4b, a ∉ readSet true o4 ∧ a ∉ writeSet o4)
      ∧ (∃ t u, exec (.iipredD45 o4) s4 = .next t ∧ exec (.predV o4b) t = .next u)
      ∧ ∃ t u, exec (.predV o4b) s4 = .next t ∧ exec (.iipredD45 o4) t = .next u := by
  obtain ⟨t, ht⟩ := exec_next (.iipredD45 o4) s4
  obtain ⟨u, hu⟩ := exec_next (.predV o4b) t
  obtain ⟨t', ht'⟩ := exec_next (.predV o4b) s4
  obtain ⟨u', hu'⟩ := exec_next (.iipredD45 o4) t'
  exact ⟨s4_wf, ready_of_reset_config _ (by decide) rfl rfl, ready_of_reset_config _ (by decide) rfl rfl,
    all_of (by decide +kernel), all_of (by decide +kernel), ⟨t, u, ht, hu⟩, t', u', ht', hu'⟩

/-- The smallest stride and the lowest address at which the premises hold. -/
theorem witness_InPlaceFootprintsAreDisjoint :
    let o : Operands := ⟨.s4, .s4, true, true, false, 6, 5, 6, 5⟩
    o.dst = o.src ∧ o.ds = o.ss ∧ width o + 1 ≤ o.ss.toNat ∧ o.ss.toNat + 1 ≤ o.src.toNat
      ∧ o.src.toNat + (height o - 1) * o.ss.toNat + width o ≤ 2 ^ 32
      ∧ (1 : Word) ∈ readSet false o ∧ (5 : Word) ∈ readSet false o := by decide

theorem witness_KernelsWriteEachCellOnceBeforeReading :
    directionalMode .d45 = true ∧ 64 ∈ [4, 8, 16, 32, 64]
      ∧ ∃ before after w, kernelOf .d45 4 = before ++ w :: after ∧ (1, 2) ∈ w.value.cells :=
  ⟨rfl, by decide, (kernelOf .d45 4).take 11, (kernelOf .d45 4).drop 12,
    ⟨2, 2, .avg (.cell 1 2) (.cell 2 1)⟩, by decide, by decide⟩

theorem witness_KernelsReadTheListedContext :
    ∀ n ∈ [4, 64], n ∈ [4, 8, 16, 32, 64]
      ∧ ∃ w ∈ kernelOf .d135 n, (-1 : Int) ∈ w.value.aboves := by
  intro n hn
  simp only [List.mem_cons, List.not_mem_nil, or_false] at hn
  refine ⟨by rcases hn with rfl | rfl <;> decide, ⟨0, 0, .above (((0 : Nat) : Int) - 1)⟩, ?_, by decide⟩
  simp only [kernelOf, kernelD135, List.mem_append, List.mem_map, mem_upTo]
  exact .inl (.inl ⟨0, by omega, rfl⟩)

/-- Scratch arrays with different edges, and those with the edges exchanged. -/
theorem witness_D27IsTheTransposeOfD63 :
    let s : Scratch := { Scratch.reset with above := Vector.replicate 65 1, left := Vector.replicate 64 2 }
    let t : Scratch := { Scratch.reset with above := Vector.replicate 65 2, left := Vector.replicate 64 1 }
    64 ∈ [4, 8, 16, 32, 64]
      ∧ ∀ j : Nat, j < 64 → s.leftAt j = t.aboveAt j ∧ s.aboveAt j = t.leftAt j := by decide +kernel

/-- Every sample around the block of `o4` is 9. -/
def nines : State :=
  { State.reset with mem := [(0x100, 9), (0x101, 9), (0x102, 9), (0x103, 9), (0x104, 9),
    (0x110, 9), (0x120, 9), (0x130, 9), (0x140, 9)] }

theorem witness_ConstantContextIsPredictedConstant :
    nines.mem.wf = true ∧ (Instr.predTm o4).ii = false ∧ Ready (.predTm o4) nines
      ∧ (∀ j : Int, -1 ≤ j → j < side o4 → contextAbove o4 nines.mem j = 9)
      ∧ ∀ j : Nat, j < side o4 → contextLeft o4 nines.mem j = 9 := by
  refine ⟨by decide, rfl, ready_of_reset_config _ (by decide) rfl rfl, fun j h1 h2 => ?_, by decide⟩
  rw [show side o4 = 4 by decide] at h2
  obtain rfl | rfl | rfl | rfl | rfl : j = -1 ∨ j = 0 ∨ j = 1 ∨ j = 2 ∨ j = 3 := by omega
  all_goals decide

/-- The 8×8 command on the extended context of V-NS1, and the memory that holds that context. -/
def o88 : Operands := ⟨.s8, .s8, true, true, false, 0x2021, 32, 0x2021, 32⟩

def p2x : Memory := p2 ++ [(0x20A0, 120), (0x20C0, 120), (0x20E0, 120), (0x2100, 120)]

theorem lastWriter_o84 : LastWriter o84 3 7 := by
  intro r c hr hc _
  have h1 : r < 4 := hr
  have h2 : c < 8 := hc
  omega

theorem lastWriter_o88 : LastWriter o88 3 7 := by
  intro r c hr hc he
  have key : ∀ p ∈ positions o88, destAddr o88 p.1 p.2 = destAddr o88 3 7 →
      p.1 < 3 ∨ (p.1 = 3 ∧ p.2 ≤ 7) := by decide +kernel
  exact key (r, c) (mem_positions.mpr ⟨hr, hc⟩) he

theorem witness_NonSquareIsTheCroppedSquare :
    let s : State := { State.reset with mem := p2 }
    let s' : State := { State.reset with mem := p2x }
    directionalMode .d45 = true ∧ s.mem.wf = true ∧ s'.mem.wf = true
      ∧ width o88 = side o84 ∧ height o88 = side o84
      ∧ (∀ j : Int, -1 ≤ j → j < side o84 → contextAbove o88 s'.mem j = contextAbove o84 s.mem j)
      ∧ (∀ j : Nat, j < side o84 → contextLeft o88 s'.mem j = contextLeft o84 s.mem j)
      ∧ Ready (instrOf false .d45 o84) s ∧ Ready (instrOf false .d45 o88) s'
      ∧ (∃ t, exec (instrOf false .d45 o84) s = .next t)
      ∧ (∃ t, exec (instrOf false .d45 o88) s' = .next t)
      ∧ LastWriter o84 3 7 ∧ LastWriter o88 3 7 := by
  refine ⟨rfl, by decide, by decide, by decide, by decide, fun j h1 h2 => ?_, by decide +kernel,
    ready_of_reset_config _ (by decide) rfl rfl, ready_of_reset_config _ (by decide) rfl rfl,
    exec_next _ _, exec_next _ _, lastWriter_o84, lastWriter_o88⟩
  rw [show side o84 = 8 by decide] at h2
  obtain rfl | rfl | rfl | rfl | rfl | rfl | rfl | rfl | rfl :
    j = -1 ∨ j = 0 ∨ j = 1 ∨ j = 2 ∨ j = 3 ∨ j = 4 ∨ j = 5 ∨ j = 6 ∨ j = 7 := by omega
  all_goals decide +kernel

/-! ## Witnesses: arithmetic, at the ends of the ranges -/

/-- The last value at the last exact index and at the first and last index that is not, each with its listed value. -/
theorem witness_ScaledValueIsNearTheRoundedQuotient :
    (1020 : Nat) ≤ 1020 ∧ 62 ∈ upTo 0 20 ++ [22, 27, 29, 30, 31, 49, 56, 62]
      ∧ 16320 ≤ 255 * (62 + 2) ∧ 16575 ≤ 255 * (63 + 2)
      ∧ 21 ∉ upTo 0 20 ++ [22, 27, 29, 30, 31, 49, 56, 62]
      ∧ 63 ∉ upTo 0 20 ++ [22, 27, 29, 30, 31, 49, 56, 62]
      ∧ iscaleRound 3646 21 ≠ roundDiv 3646 (21 + 2) ∧ iscaleRound 3645 21 = roundDiv 3645 (21 + 2)
      ∧ iscaleRound 2113 63 ≠ roundDiv 2113 (63 + 2) ∧ iscaleRound 2112 63 = roundDiv 2112 (63 + 2) := by
  decide +kernel

theorem witness_WeightedAverageLiesBetween :
    2 ≤ 0 + 2 ∧ 2 ≤ 64 + 1 ∧ 64 + 1 ≤ 65 ∧ (255 : Nat) ≤ 255 := by decide

theorem witness_BlendLiesBetween : (256 : Nat) ≤ 256 ∧ (0 : Nat) ≤ 256 ∧ (255 : Nat) ≤ 255 := by decide

theorem witness_WeightsDecayWithinTheTable :
    63 ≤ 63 ∧ 63 < 64 ∧ 3 < height o84 ∧ 7 < width o84 := by decide

end Sys2Proof.Tests
end

/-! Proofs about the state: the registers ERR, CAUSE, STATUS and CAP, the invariant, the open parameters, and the
scratch arrays (10_state.md). -/

namespace Sys2Proof.Machine

/-! ## The invariant -/

/-- The host's list is no part of the invariant. -/
theorem State.Inv.setHost {s : State} (h : s.Inv) (rest : List HostAction) :
    State.Inv { s with host := rest } := h

theorem State.Inv.raiseFault {s : State} (h : s.Inv) {c : Cause} (hc : c ≠ .none) :
    (raiseFault c s).Inv := by
  obtain ⟨hwf, hcells, -⟩ := h
  exact ⟨hwf, hcells, by simp [hc]⟩

theorem State.Inv.applyReset {s : State} (h : s.Inv) : (applyReset s).Inv := by
  obtain ⟨hwf, hcells, -⟩ := h
  exact ⟨hwf, hcells, by simp⟩

/-- A write to an existing address keeps the invariant. -/
theorem State.Inv.write {s : State} (h : s.Inv) {a : Word} (ha : admits s.cfg a = true)
    (v : Sample) : State.Inv { s with mem := s.mem.write a v } := by
  obtain ⟨hwf, hcells, herr⟩ := h
  refine ⟨Memory.wf_write hwf a v, fun cell hcell => ?_, herr⟩
  rcases mem_write_cases hcell with hold | rfl
  · exact hcells cell hold
  · simpa using ha

/-- A performed command lists new cells only in its write set, whose addresses exist (R68). -/
theorem State.Inv.perform {i : Instr} {s : State} (h : s.Inv) (hr : Ready i s) :
    (perform i.ii i.mode i.operands s).Inv := by
  obtain ⟨hwf, hcells, herr⟩ := h
  obtain ⟨-, -, -, hfoot⟩ := hr
  refine ⟨wf_writeBack _ _ hwf, fun cell hcell => ?_, herr⟩
  rw [perform_mem] at hcell
  rcases mem_writeBack_cases _ _ hcell with hold | ⟨a, ha, e⟩
  · exact hcells cell hold
  · simpa [e] using hfoot a (List.mem_append_right _ ha)

/-- Settles O16: each case of `step_cases` keeps the invariant. -/
theorem everyStepKeepsTheInvariant : Obligations.EveryStepKeepsTheInvariant := by
  intro s t hs h
  rcases step_cases h with ⟨-, rfl⟩ | ⟨a, rest, -, hcase⟩
  · exact hs
  · have hrest := hs.setHost rest
    rcases hcase with rfl | ⟨d, c, -, -, hc, rfl⟩ | ⟨d, i, -, -, hr, rfl⟩ | ⟨x, v, -, hx, rfl⟩ |
      ⟨-, rfl⟩
    · exact hrest
    · exact hrest.raiseFault hc
    · exact hrest.perform hr
    · exact hrest.write hx v
    · exact hrest.applyReset

/-- Settles O15: memory is empty and ERR and CAUSE are both clear. -/
theorem resetMeetsTheInvariant : Obligations.ResetMeetsTheInvariant :=
  ⟨rfl, fun _ hcell => (List.not_mem_nil hcell).elim, by decide⟩

/-- Settles O17: no case of `step_cases` writes the configuration. -/
theorem parametersNeverChange : Obligations.ParametersNeverChange := by
  intro s t h
  rcases step_cases h with ⟨-, rfl⟩ | ⟨a, rest, -, hcase⟩
  · rfl
  · rcases hcase with rfl | ⟨d, c, -, -, -, rfl⟩ | ⟨d, i, -, -, -, rfl⟩ | ⟨x, v, -, -, rfl⟩ | ⟨-, rfl⟩
      <;> rfl

/-! ## Non-interference of the scratch arrays -/

/-- Where `x` is a next state, `y` is that state with some scratch arrays. -/
def SameButScratch (x y : Host.Outcome State Fault Refusal) : Prop :=
  ∀ t, x = .next t → ∃ sc, y = .next { t with scratch := sc }

theorem SameButScratch.next (s : State) (sc : Scratch) :
    SameButScratch (.next s) (.next { s with scratch := sc }) := by
  rintro _ ⟨⟩
  exact ⟨sc, rfl⟩

theorem SameButScratch.fault (r : Fault) (y : Host.Outcome State Fault Refusal) :
    SameButScratch (.fault r) y := nofun

/-- What a command writes to memory does not depend on the scratch arrays: every element it uses it has
written before (R43). -/
theorem perform_setScratch (ii : Bool) (m : Mode) (o : Operands) (s : State) (sc : Scratch) :
    ∃ sc', perform ii m o { s with scratch := sc } = { perform ii m o s with scratch := sc' } := by
  have hmem : writeBack o (outOf ii m o { s with scratch := sc }) s.mem =
      writeBack o (outOf ii m o s) s.mem :=
    writeBack_congr fun r c hr hc =>
      outOf_congr (s := { s with scratch := sc }) (s' := s) (fun _ _ => rfl) hr hc
  exact ⟨(perform ii m o { s with scratch := sc }).scratch,
    congrArg (fun mem => { perform ii m o { s with scratch := sc } with mem := mem }) hmem⟩

theorem sameButScratch_runCommand (ii : Bool) (m : Mode) (o : Operands) (s : State) (sc : Scratch) :
    SameButScratch (runCommand ii m o s) (runCommand ii m o { s with scratch := sc }) := by
  unfold runCommand
  by_cases he : s.err = true
  · rw [if_pos he, if_pos he]
    exact .next s sc
  · rw [if_neg he, if_neg he]
    cases checkCommand s.cfg ii o with
    | some c => exact .next (raiseFault c s) sc
    | none =>
      obtain ⟨sc', hsc'⟩ := perform_setScratch ii m o s sc
      simp only [hsc']
      exact .next _ sc'

theorem sameButScratch_rejectCommand (c : Cause) (s : State) (sc : Scratch) :
    SameButScratch (rejectCommand c s) (rejectCommand c { s with scratch := sc }) := by
  unfold rejectCommand
  by_cases he : s.err = true
  · rw [if_pos he, if_pos he]
    exact .next s sc
  · rw [if_neg he, if_neg he]
    exact .next (raiseFault c s) sc

theorem sameButScratch_presentCommand (d : Descriptor) (s : State) (sc : Scratch) :
    SameButScratch (presentCommand d s) (presentCommand d { s with scratch := sc }) := by
  unfold presentCommand
  cases decode d with
  | error c => exact sameButScratch_rejectCommand c s sc
  | ok i =>
    simp only [exec_eq]
    exact sameButScratch_runCommand _ _ _ s sc

theorem sameButScratch_hostAccess (a : Word) (s after : State) (sc : Scratch) :
    SameButScratch (hostAccess a s after)
      (hostAccess a { s with scratch := sc } { after with scratch := sc }) := by
  unfold hostAccess
  by_cases ha : admits s.cfg a = true
  · rw [if_pos ha, if_pos ha]
    exact .next after sc
  · rw [if_neg ha]
    exact .fault _ _

theorem sameButScratch_hostAction (a : HostAction) (s : State) (sc : Scratch) :
    SameButScratch (hostAction a s) (hostAction a { s with scratch := sc }) := by
  cases a with
  | issue d => exact sameButScratch_presentCommand d s sc
  | writeSample a v => exact sameButScratch_hostAccess a s { s with mem := s.mem.write a v } sc
  | readSample a => exact sameButScratch_hostAccess a s s sc
  | readStatus => exact .next s sc
  | readCap => exact .next s sc
  | reset => exact .next (applyReset s) sc

/-- Settles O43: no action of the host lets the scratch arrays reach anything else. -/
theorem scratchIsNotObservable : Obligations.ScratchIsNotObservable := by
  intro s t sc h
  suffices hstep : SameButScratch (step s) (step { s with scratch := sc }) from hstep t h
  simp only [step]
  split
  next => exact .next s sc
  next a rest _ => exact sameButScratch_hostAction a { s with host := rest } sc

/-! ## The frame of the scratch arrays -/

/-- The scratch arrays a predictor leaves: a directional mode runs the adapter and its kernel, the others write
nothing. -/
theorem predict_scratch (m : Mode) (o : Operands) (sc : Scratch) :
    (predict m o sc).1 =
      if directionalMode m then runKernel (kernelOf m (side o)) (adapt o sc) else sc := by
  cases m <;> rfl

/-- The side of the square that the adapter and the kernel of a mode work on, 0 where there is none. -/
def workingSide (m : Mode) (o : Operands) : Nat := if directionalMode m then side o else 0

theorem aboveAt_predict_keeps (m : Mode) (o : Operands) (sc : Scratch) {j : Int}
    (hn : workingSide m o ≤ j) (h0 : 0 ≤ j) (hj : j < 64) :
    (predict m o sc).1.aboveAt j = sc.aboveAt j := by
  rw [predict_scratch]
  split
  next hd =>
    rw [workingSide, if_pos hd] at hn
    rw [aboveAt_runKernel, aboveAt_adapt o sc (by omega) hj, if_neg (by omega)]
  next => rfl

theorem leftAt_predict_keeps (m : Mode) (o : Operands) (sc : Scratch) {j : Nat}
    (hn : workingSide m o ≤ j) (hj : j < 64) :
    (predict m o sc).1.leftAt j = sc.leftAt j := by
  rw [predict_scratch]
  split
  next hd =>
    rw [workingSide, if_pos hd] at hn
    rw [leftAt_runKernel, leftAt_adapt o sc hj, if_neg (by omega)]
  next => rfl

theorem sq_predict_keeps (m : Mode) (o : Operands) (sc : Scratch) {r c : Nat} (hr : r < 64)
    (hc : c < 64) (hn : ¬ (r < workingSide m o ∧ c < workingSide m o)) :
    squareGet (predict m o sc).1.sq r c = squareGet sc.sq r c := by
  rw [predict_scratch]
  split
  next hd =>
    rw [workingSide, if_pos hd] at hn
    have hin := scheduled_bounds (scheduled_kernelOf m (legalSide_side o))
    rw [runKernel_untouched _ _ hr hc, adapt_sq]
    rintro w hw ⟨rfl, rfl⟩
    exact hn (hin w hw)
  next => rfl

theorem sq_readPhase (ii : Bool) (o : Operands) (s : State) :
    (readPhase ii o s).sq = s.scratch.sq := by
  cases ii <;> simp [readPhase]

theorem ib_readPhase_keeps (ii : Bool) (o : Operands) (s : State) {r c : Nat} (hr : r < 64)
    (hc : c < 64) (hn : ¬ (ii = true ∧ r < height o ∧ c < width o)) :
    squareGet (readPhase ii o s).ib r c = squareGet s.scratch.ib r c := by
  cases ii with
  | false => simp [readPhase]
  | true =>
    simp only [readPhase, if_true]
    rw [ib_loadInter _ _ _ hr hc, if_neg (by simpa using hn), buildContext_ib]

/-- Settles O41: the read phase and the predictor keep each array outside their own parts of it. -/
theorem commandsWriteOnlyTheirScratch : Obligations.CommandsWriteOnlyTheirScratch := by
  intro i s t hr h
  obtain rfl : perform i.ii i.mode i.operands s = t := by
    rw [exec_of_ready hr] at h
    exact Host.Outcome.next.inj h
  refine ⟨fun j hj hj' => ?_, fun j hj hj' => ?_, fun r c hr hc hn => ?_, fun r c hr hc hn => ?_⟩
  · rw [Nat.cast_max] at hj
    obtain ⟨hw, hn⟩ := max_le_iff.mp hj
    have hb := width_bounds i.operands
    change (predict _ _ _).1.aboveAt j = _
    rw [aboveAt_predict_keeps i.mode i.operands _ hn (by omega) hj', aboveAt_readPhase,
      aboveAt_buildContext _ _ _ (by omega) hj', if_neg (by omega), if_neg (by omega)]
  · obtain ⟨hh, hn⟩ := max_le_iff.mp hj
    change (predict _ _ _).1.leftAt j = _
    rw [leftAt_predict_keeps i.mode i.operands _ hn hj', leftAt_readPhase,
      leftAt_buildContext _ _ _ hj', if_neg (by omega)]
  · change squareGet (predict _ _ _).1.sq r c = _
    rw [sq_predict_keeps _ _ _ hr hc hn, sq_readPhase]
  · change squareGet (predict _ _ _).1.ib r c = _
    rw [predict_ib, ib_readPhase_keeps _ _ _ hr hc hn]

/-! ## STATUS and CAP -/

theorem statusWord_toNat (s : State) :
    (statusWord s).toNat = s.err.toNat + 2 * (causeCode s.cause).toNat := by
  unfold statusWord
  cases s.err <;> cases s.cause <;> rfl

theorem capWord_toNat (s : State) : (capWord s).toNat = s.cfg.hasII.toNat := by
  unfold capWord
  cases s.cfg.hasII <;> rfl

/-- The codes of the five causes of a fault (R231). -/
theorem causeCode_bounds {c : Cause} (hc : c ≠ .none) :
    1 ≤ (causeCode c).toNat ∧ (causeCode c).toNat ≤ 5 := by
  cases c with
  | none => exact absurd rfl hc
  | reservedBits | illegalMode | illegalSize | unsupported | access => decide

theorem State.Inv.statusWord_of_no_err {s : State} (h : s.Inv) (he : s.err = false) :
    (statusWord s).toNat = 0 := by
  obtain ⟨-, -, herr⟩ := h
  rw [statusWord_toNat, he, herr.mp he]
  rfl

theorem State.Inv.statusCause_of_err {s : State} (h : s.Inv) (he : s.err = true) :
    1 ≤ (statusWord s).toNat / 2 % 8 ∧ (statusWord s).toNat / 2 % 8 ≤ 5 := by
  obtain ⟨-, -, herr⟩ := h
  have hb := causeCode_bounds (c := s.cause) fun hc => by simp [herr.mpr hc] at he
  rw [statusWord_toNat, he, Bool.toNat_true]
  omega

/-- Settles O13, field by field. -/
theorem statusAndCapFields : Obligations.StatusAndCapFields := by
  intro s
  have code (c : Cause) (h : s.cause = c) : (causeCode s.cause).toNat = (causeCode c).toNat := by
    rw [h]
  exact ⟨statusWord_toNat s, code _, code _, code _, code _, code _, code _, capWord_toNat s,
    State.Inv.statusWord_of_no_err, State.Inv.statusCause_of_err⟩

/-- Settles O14, by evaluation of the reset state. -/
theorem resetStateHasNoFault : Obligations.ResetStateHasNoFault := ⟨rfl, rfl, rfl⟩

end Sys2Proof.Machine

/-! Proofs about sample memory: addresses, the footprint of a command and its admission, and what a command
leaves in memory (20_memory.md). -/

namespace Sys2Proof.Machine

/-! ## Addresses -/

/-- An address is the integer of R62 reduced modulo `2^32`. -/
theorem addr_toNat (b s : Word) (r c : Int) :
    ((addr b s r c).toNat : Int) = ((b.toNat : Int) + r * s.toNat + c) % 2 ^ 32 := by
  rw [addr, BitVec.toNat_ofInt, Int.toNat_of_nonneg (Int.emod_nonneg _ (by decide))]
  rfl

/-- The negated stride word walks the rows the other way. -/
theorem addr_neg_stride (b s : Word) (r c : Int) : addr b (-s) r c = addr b s (-r) c := by
  simp only [addr, BitVec.ofInt_add, BitVec.ofInt_mul, BitVec.ofInt_neg, BitVec.ofInt_natCast,
    BitVec.ofNat_toNat, BitVec.setWidth_eq, BitVec.mul_neg, BitVec.neg_mul]

/-- Settles O53: a negated stride is the same walk over negated rows. -/
theorem addressesWrapAndStridesMayBeNegative :
    Obligations.AddressesWrapAndStridesMayBeNegative := by
  intro b s r c
  refine ⟨addr_toNat b s r c, ?_⟩
  rw [addr_neg_stride, addr_toNat, Int.neg_mul, ← sub_eq_add_neg]

/-- `h` rows of `w` samples at base `b`, with the column to their left and the row above them, lie between 0 and
`2^32`, and a row with its left neighbour is no wider than the stride (R77). -/
structure Unwrapped (b s : Word) (h w : Nat) : Prop where
  row : w + 1 ≤ s.toNat
  first : s.toNat + 1 ≤ b.toNat
  last : b.toNat + (h - 1) * s.toNat + w ≤ 2 ^ 32

/-- Row `r`, column `c` is in a block of `h` rows and `w` columns or on the edge to its left or above it. -/
structure InFrame (h w : Nat) (r c : Int) : Prop where
  row : -1 ≤ r ∧ r < h
  col : -1 ≤ c ∧ c < w

theorem Unwrapped.addr_toNat {b s : Word} {h w : Nat} (hu : Unwrapped b s h w) {r c : Int}
    (hp : InFrame h w r c) : ((addr b s r c).toNat : Int) = b.toNat + r * s.toNat + c := by
  obtain ⟨hrow, hfirst, hlast⟩ := hu
  obtain ⟨⟨hr, hr'⟩, hc, hc'⟩ := hp
  have hlow : -1 * (s.toNat : Int) ≤ r * s.toNat := Int.mul_le_mul_of_nonneg_right hr (by omega)
  have hhigh : r * (s.toNat : Int) ≤ ((h - 1 : Nat) : Int) * s.toNat :=
    Int.mul_le_mul_of_nonneg_right (by omega) (by omega)
  rw [Machine.addr_toNat, Int.emod_eq_of_lt (by omega)]
  zify at hlast
  omega

/-- Without wrap-around, different places have different addresses. -/
theorem Unwrapped.addr_inj {b s : Word} {h w : Nat} (hu : Unwrapped b s h w) {r c r' c' : Int}
    (hp : InFrame h w r c) (hp' : InFrame h w r' c') (e : addr b s r c = addr b s r' c') :
    r = r' ∧ c = c' := by
  have hlin : (r - r') * (s.toNat : Int) = c' - c := by
    have h1 := hu.addr_toNat hp
    have h2 := hu.addr_toNat hp'
    rw [e] at h1
    linarith
  have hcol : |c' - c| < (s.toNat : Int) := by
    have := hu.row
    have := hp.col
    have := hp'.col
    rw [abs_lt]
    omega
  have hzero : c' - c = 0 := Int.eq_zero_of_abs_lt_dvd ⟨r - r', by rw [← hlin, mul_comm]⟩ hcol
  have hs : (s.toNat : Int) ≠ 0 := by
    have := hu.row
    omega
  rw [hzero] at hlin
  have := (mul_eq_zero.mp hlin).resolve_right hs
  omega

/-! ## The footprint -/

/-- The read set of a `PRED` command lies on the edge of its source block. -/
theorem mem_readSet_pred {o : Operands} {a : Word} (ha : a ∈ readSet false o) :
    ∃ r c : Int, InFrame (height o) (width o) r c ∧ (r = -1 ∨ c = -1) ∧ addr o.src o.ss r c = a := by
  have hw := width_bounds o
  have hh := height_bounds o
  simp only [readSet, Bool.false_eq_true, if_false, List.append_nil, List.mem_append] at ha
  rcases ha with (ha | ha) | ha
  · obtain ⟨-, ha⟩ := List.mem_ite_nil_right.mp ha
    obtain ⟨r, hr, rfl⟩ := List.mem_map.mp ha
    rw [mem_upTo] at hr
    exact ⟨r, -1, ⟨by omega, by omega⟩, .inr rfl, rfl⟩
  · obtain ⟨-, ha⟩ := List.mem_ite_nil_right.mp ha
    obtain ⟨c, hc, rfl⟩ := List.mem_map.mp ha
    rw [mem_upTo] at hc
    exact ⟨-1, c, ⟨by omega, by omega⟩, .inl rfl, rfl⟩
  · obtain ⟨-, ha⟩ := List.mem_ite_nil_right.mp ha
    obtain rfl := List.mem_singleton.mp ha
    exact ⟨-1, -1, ⟨by omega, by omega⟩, .inl rfl, rfl⟩

/-- Settles O47: the read set is on the edge of the block, the write set in its interior, and no two places share
an address. -/
theorem inPlaceFootprintsAreDisjoint : Obligations.InPlaceFootprintsAreDisjoint := by
  intro o hdst hds hrow hfirst hlast a hread hwrite
  obtain ⟨r, c, hedge, hside, rfl⟩ := mem_readSet_pred hread
  obtain ⟨r', c', hr', hc', e⟩ := mem_writeSet.mp hwrite
  rw [destAddr, hdst, hds] at e
  have hu : Unwrapped o.src o.ss (height o) (width o) := ⟨hrow, hfirst, hlast⟩
  obtain ⟨rfl, rfl⟩ := hu.addr_inj (r := r') (c := c') ⟨by omega, by omega⟩ hedge e
  omega

/-- With the earlier checks passed, an absent footprint address is the failing check (R98). -/
theorem checkCommand_access {cfg : Config} {ii : Bool} {o : Operands}
    (hshape : legalShape o.bwl o.bhl = true) (hblend : ii = true → cfg.hasII = true)
    (habsent : ∃ a ∈ readSet ii o ++ writeSet o, admits cfg a = false) :
    checkCommand cfg ii o = some .access := by
  have hfoot : footprintAdmitted cfg ii o = false := by
    obtain ⟨a, ha, hno⟩ := habsent
    exact List.all_eq_false.mpr ⟨a, ha, by simp [hno]⟩
  have hunsup : (ii && !cfg.hasII) = false := by
    cases ii with
    | false => rfl
    | true => simp [hblend rfl]
  simp [checkCommand, hshape, hunsup, hfoot]

/-- Settles O39: the footprint check is the last one, and a command that passes it is performed. -/
theorem admissionDecidesTheAccessFault : Obligations.AdmissionDecidesTheAccessFault := by
  intro i s herr hwf hblend
  constructor
  · intro habsent
    simp only [exec_eq, runCommand, herr, Bool.false_eq_true, if_false,
      checkCommand_access hwf hblend habsent, raiseFault]
  · intro hadmit
    exact ⟨_, exec_of_ready ⟨herr, hwf, hblend, hadmit⟩, herr, rfl⟩

/-! ## What a command leaves in memory -/

theorem eq_perform_of_exec {i : Instr} {s t : State} (hr : Ready i s) (h : exec i s = .next t) :
    t = perform i.ii i.mode i.operands s := by
  rw [exec_of_ready hr] at h
  exact (Host.Outcome.next.inj h).symm

/-- A command that is not ready is discarded or faults. -/
theorem exec_of_not_ready {i : Instr} {s t : State} (hr : ¬ Ready i s) (h : exec i s = .next t) :
    t = s ∨ ∃ c, t = raiseFault c s := by
  rcases exec_cases h with ⟨-, rfl⟩ | ⟨-, c, -, rfl⟩ | ⟨hready, -⟩
  · exact .inl rfl
  · exact .inr ⟨c, rfl⟩
  · exact absurd hready hr

/-- Settles O40: a performed command writes its write set, any other leaves all but ERR and CAUSE alone. -/
theorem commandsKeepEverythingElse : Obligations.CommandsKeepEverythingElse := by
  intro i s t hm h
  by_cases hr : Ready i s
  · obtain rfl := eq_perform_of_exec hr h
    exact ⟨fun _ ha => read_writeBack_outside hm ha, rfl, rfl, fun _ => ⟨rfl, rfl⟩,
      fun hn => absurd hr hn⟩
  · rcases exec_of_not_ready hr h with rfl | ⟨c, rfl⟩ <;>
      exact ⟨fun _ _ => rfl, rfl, rfl, fun hready => absurd hready hr, fun _ => ⟨rfl, rfl⟩⟩

/-- Settles O44: `OUT` is a function of the read set, and the last writer of an address stores it. -/
theorem resultDependsOnTheReadSetAlone : Obligations.ResultDependsOnTheReadSetAlone := by
  intro i s s' t t' hm hm' hr hr' hagree h h' a ha
  obtain rfl := eq_perform_of_exec hr h
  obtain rfl := eq_perform_of_exec hr' h'
  exact read_writeBack_congr (fun _ _ hrow hcol => outOf_congr hagree hrow hcol) hm hm' ha

/-- Performing a command changes nothing that `Ready` looks at. -/
theorem Ready.perform {i : Instr} {s : State} (h : Ready i s) (ii : Bool) (m : Mode) (o : Operands) :
    Ready i (perform ii m o s) := h

/-- Settles O45: the first run leaves the read set alone (O40), so the second run writes the same samples (O44). -/
theorem predIsIdempotent : Obligations.PredIsIdempotent := by
  intro i s t u hm _ hr hdisjoint ht hu a
  have hrun := eq_perform_of_exec hr ht
  have hmt : t.mem.wf = true := hrun ▸ wf_writeBack _ _ hm
  have hrt : Ready i t := hrun ▸ hr.perform _ _ _
  by_cases ha : a ∈ writeSet i.operands
  · refine resultDependsOnTheReadSetAlone i t s u t hmt hm hrt hr (fun x hx => ?_) hu ht a ha
    exact (commandsKeepEverythingElse i s t hm ht).1 x (hdisjoint x hx)
  · exact (commandsKeepEverythingElse i t u hmt hu).1 a ha

end Sys2Proof.Machine

/-! Proofs about the encoding of commands: the field table R91 read in both directions, and the checks of R98 in
their order (30_encoding.md). -/

namespace Sys2Proof

/-! ## The field table -/

/-- The 160 bits of `d` are the fields that R90, R91 and R96 give the command `i`. -/
structure FieldsOf (d : Descriptor) (i : Instr) : Prop where
  reserved : d.cmd.toNat / 2 ^ 14 = 0
  mode : i.mode.code = d.cmd.toNat % 16
  bwl : i.operands.bwl.code = d.cmd.toNat / 2 ^ 4 % 8
  bhl : i.operands.bhl.code = d.cmd.toNat / 2 ^ 7 % 8
  up : i.operands.up.toNat = d.cmd.toNat / 2 ^ 10 % 2
  left : i.operands.left.toNat = d.cmd.toNat / 2 ^ 11 % 2
  right : i.operands.right.toNat = d.cmd.toNat / 2 ^ 12 % 2
  ii : i.ii.toNat = d.cmd.toNat / 2 ^ 13 % 2
  src : i.operands.src = d.src
  ss : i.operands.ss = d.ss
  dst : i.operands.dst = d.dst
  ds : i.operands.ds = d.ds

theorem fieldsOf_encode (i : Instr) : FieldsOf (encode i) i := by
  obtain ⟨hcmd, hmode, hbwl, hbhl⟩ := encodeCmd_toNat i
  have := i.operands.up.toNat_le
  have := i.operands.left.toNat_le
  have := i.operands.right.toNat_le
  have := i.ii.toNat_le
  have hword : (encode i).cmd.toNat = _ := hcmd
  refine ⟨?_, ?_, ?_, ?_, ?_, ?_, ?_, ?_, rfl, rfl, rfl, rfl⟩ <;> omega

/-- The fields cover word 0, so they determine every bit of it. -/
theorem FieldsOf.encode_eq {d : Descriptor} {i : Instr} (h : FieldsOf d i) : encode i = d := by
  obtain ⟨hres, hmode, hbwl, hbhl, hup, hleft, hright, hii, hsrc, hss, hdst, hds⟩ := h
  have hcmd : encodeCmd i = d.cmd := by
    refine BitVec.eq_of_toNat_eq ?_
    rw [(encodeCmd_toNat i).1]
    omega
  rw [encode, hcmd, hsrc, hss, hdst, hds]

theorem encode_eq_iff {d : Descriptor} {i : Instr} : encode i = d ↔ FieldsOf d i :=
  ⟨fun h => h ▸ fieldsOf_encode i, FieldsOf.encode_eq⟩

/-- A flag is a bit of word 0 when their numbers agree. -/
theorem eq_bitAt_iff {f : Bool} {w : Word} {b : Nat} :
    f = bitAt w b ↔ f.toNat = w.toNat / 2 ^ b % 2 := by
  rw [← bitAt_toNat]
  cases f <;> cases bitAt w b <;> decide

theorem eq_instrOf_iff {i : Instr} {ii : Bool} {m : Mode} {o : Operands} :
    i = instrOf ii m o ↔ i.ii = ii ∧ i.mode = m ∧ i.operands = o := by
  constructor
  · rintro rfl
    simp
  · rintro ⟨rfl, rfl, rfl⟩
    exact (instrOf_self i).symm

theorem eq_operandsOf_iff {o : Operands} {d : Descriptor} :
    o = operandsOf d o.bwl o.bhl ↔
      (o.up = bitAt d.cmd 10 ∧ o.left = bitAt d.cmd 11 ∧ o.right = bitAt d.cmd 12) ∧
        o.src = d.src ∧ o.ss = d.ss ∧ o.dst = d.dst ∧ o.ds = d.ds := by
  cases o
  simp [operandsOf, and_assoc]

/-- A descriptor decodes to the well-formed command whose fields it holds. -/
theorem decode_ok_iff_fields {d : Descriptor} {i : Instr} :
    decode d = .ok i ↔ i.wellFormed = true ∧ FieldsOf d i := by
  rw [decode_ok, eq_instrOf_iff, eq_operandsOf_iff]
  simp only [eq_bitAt_iff, true_and]
  constructor
  · rintro ⟨hres, hwf, hmode, hbwl, hbhl, hii, ⟨hup, hleft, hright⟩, hsrc, hss, hdst, hds⟩
    exact ⟨hwf, hres, hmode, hbwl, hbhl, hup, hleft, hright, hii, hsrc, hss, hdst, hds⟩
  · rintro ⟨hwf, hres, hmode, hbwl, hbhl, hup, hleft, hright, hii, hsrc, hss, hdst, hds⟩
    exact ⟨hres, hwf, hmode, hbwl, hbhl, hii, ⟨hup, hleft, hright⟩, hsrc, hss, hdst, hds⟩

/-- `decode` and `encode` are inverse to each other on well-formed commands. -/
theorem decode_ok_iff_encode {d : Descriptor} {i : Instr} :
    decode d = .ok i ↔ i.wellFormed = true ∧ encode i = d := by
  rw [decode_ok_iff_fields, encode_eq_iff]

/-- Settles O1: the encoding of a command holds its fields. -/
theorem decodeOfEncodeIsTheCommand : Obligations.DecodeOfEncodeIsTheCommand :=
  fun _ hwf => decode_ok_iff_encode.mpr ⟨hwf, rfl⟩

/-- Settles O2: a descriptor is determined by the fields that decoding reads. -/
theorem encodeOfDecodeIsTheDescriptor : Obligations.EncodeOfDecodeIsTheDescriptor :=
  fun _ _ h => decode_ok_iff_encode.mp h

theorem samples_eq (c : SizeCode) : Machine.samples c = 4 * 2 ^ c.code := Nat.shiftLeft_eq 4 c.code

/-- Settles O3, field by field. -/
theorem decodedOperandsAreTheFields : Obligations.DecodedOperandsAreTheFields := by
  intro d i h
  obtain ⟨-, hf⟩ := decode_ok_iff_fields.mp h
  have flag {f : Bool} {x : Nat} (hx : f.toNat = x) : f = true ↔ x = 1 := by
    rw [← hx, Bool.toNat_eq_one]
  exact ⟨hf.mode, hf.bwl ▸ samples_eq _, hf.bhl ▸ samples_eq _, flag hf.up, flag hf.left,
    flag hf.right, flag hf.ii, hf.src, hf.ss, hf.dst, hf.ds⟩

/-! ## The checks of R98 that concern the descriptor alone -/

theorem modeOfCode_eq_none {k : Nat} (h : 10 ≤ k) : modeOfCode k = none := by
  rw [Option.eq_none_iff_forall_ne_some]
  intro m hm
  have hcode : m.code < 10 := by cases m <;> decide
  rw [modeOfCode_some.mp hm] at hcode
  omega

theorem exists_modeOfCode {k : Nat} (h : k < 10) : ∃ m, modeOfCode k = some m := by
  interval_cases k <;> exact ⟨_, rfl⟩

theorem exists_sizeOfCode {k : Nat} (h : k ≤ 4) : ∃ c, sizeOfCode k = some c := by
  interval_cases k <;> exact ⟨_, rfl⟩

theorem SizeCode.code_le (c : SizeCode) : c.code ≤ 4 := by
  cases c <;> decide

theorem legalShape_iff {bwl bhl : SizeCode} :
    legalShape bwl bhl = true ↔ bwl.code ≤ bhl.code + 1 ∧ bhl.code ≤ bwl.code + 1 := by
  simp [legalShape]

theorem decode_reservedBits {d : Descriptor} (h : d.cmd.toNat / 2 ^ 14 ≠ 0) :
    decode d = .error .reservedBits := by
  rw [decode_eq, if_pos h]

theorem decode_illegalMode {d : Descriptor} (hres : d.cmd.toNat / 2 ^ 14 = 0)
    (hmode : 10 ≤ d.cmd.toNat % 16) : decode d = .error .illegalMode := by
  rw [decode_eq, if_neg (not_not.mpr hres), modeOfCode_eq_none hmode]

/-- Word 0 fails the third check of R98: a size code stands for no size, or the two codes differ by more than 1. -/
def BadSizes (cmd : Nat) : Prop :=
  4 < cmd / 2 ^ 4 % 8 ∨ 4 < cmd / 2 ^ 7 % 8 ∨ cmd / 2 ^ 7 % 8 + 1 < cmd / 2 ^ 4 % 8
    ∨ cmd / 2 ^ 4 % 8 + 1 < cmd / 2 ^ 7 % 8

theorem decode_illegalSize {d : Descriptor} (hres : d.cmd.toNat / 2 ^ 14 = 0)
    (hmode : d.cmd.toNat % 16 < 10) (hsize : BadSizes d.cmd.toNat) :
    decode d = .error .illegalSize := by
  obtain ⟨m, hm⟩ := exists_modeOfCode hmode
  rw [decode_eq, if_neg (not_not.mpr hres), hm]
  cases hw : sizeOfCode (d.cmd.toNat / 2 ^ 4 % 8) with
  | none => rfl
  | some bwl =>
    cases hh : sizeOfCode (d.cmd.toNat / 2 ^ 7 % 8) with
    | none => rfl
    | some bhl =>
      have hlegal : ¬ legalShape bwl bhl = true := by
        have hbwl := sizeOfCode_some.mp hw ▸ bwl.code_le
        have hbhl := sizeOfCode_some.mp hh ▸ bhl.code_le
        rw [legalShape_iff, sizeOfCode_some.mp hw, sizeOfCode_some.mp hh]
        rw [BadSizes] at hsize
        omega
      exact if_neg hlegal

/-- A word 0 that passes the first three checks of R98 decodes. -/
theorem exists_decode {d : Descriptor} (hres : d.cmd.toNat / 2 ^ 14 = 0)
    (hmode : d.cmd.toNat % 16 < 10) (hsize : ¬ BadSizes d.cmd.toNat) : ∃ i, decode d = .ok i := by
  rw [BadSizes] at hsize
  obtain ⟨m, hm⟩ := exists_modeOfCode hmode
  obtain ⟨bwl, hw⟩ := exists_sizeOfCode (k := d.cmd.toNat / 2 ^ 4 % 8) (by omega)
  obtain ⟨bhl, hh⟩ := exists_sizeOfCode (k := d.cmd.toNat / 2 ^ 7 % 8) (by omega)
  have hlegal : legalShape bwl bhl = true := by
    rw [legalShape_iff, sizeOfCode_some.mp hw, sizeOfCode_some.mp hh]
    omega
  rw [decode_eq, if_neg (not_not.mpr hres), hm, hw, hh]
  exact ⟨_, if_pos hlegal⟩

/-- Settles O4: a word decodes as listed because it is the encoding of the command listed, and is rejected by the
first check it fails. -/
theorem listedWordsDecode : Obligations.ListedWordsDecode :=
  ⟨decode_ok_iff_encode.mpr ⟨rfl, rfl⟩, decode_ok_iff_encode.mpr ⟨rfl, rfl⟩,
    decode_ok_iff_encode.mpr ⟨rfl, rfl⟩, decode_ok_iff_encode.mpr ⟨rfl, rfl⟩,
    decode_illegalMode (by decide) (by decide),
    decode_illegalSize (by decide) (by decide) (.inl (by decide)),
    decode_illegalSize (by decide) (by decide) (.inr (.inr (.inr (by decide)))),
    decode_reservedBits (by decide),
    decode_illegalMode (by decide) (by decide)⟩

end Sys2Proof

namespace Sys2Proof.Machine

/-! ## The checks of R98 at a step -/

theorem step_of_decode_error {s : State} {d : Descriptor} {rest : List HostAction} {c : Cause}
    (hhost : s.host = .issue d :: rest) (herr : s.err = false) (hd : decode d = .error c) :
    step s = .next { s with host := rest, err := true, cause := c } := by
  simp [step_issue hhost, presentCommand, hd, rejectCommand, herr, raiseFault]

theorem step_of_decode_ok {s : State} {d : Descriptor} {rest : List HostAction} {i : Instr}
    (hhost : s.host = .issue d :: rest) (hd : decode d = .ok i) :
    step s = exec i { s with host := rest } := by
  rw [step_issue hhost, presentCommand, hd]

/-- Settles O38: the blender check comes right after the shape check. -/
theorem iipredWithoutBlenderIsUnsupported : Obligations.IipredWithoutBlenderIsUnsupported := by
  intro i s herr hwf hii hblender
  have hcheck : checkCommand s.cfg i.ii i.operands = some .unsupported := by
    rw [Instr.wellFormed] at hwf
    simp [checkCommand, hwf, hii, hblender]
  simp [exec_eq, runCommand, herr, hcheck, raiseFault]

/-- Settles O6: the decoder answers the first three checks, `exec` of the decoded command the last two. -/
theorem firstFailingCheckDecidesTheFault : Obligations.FirstFailingCheckDecidesTheFault := by
  intro s d rest hhost herr cmd reserved mode bwl bhl size blend fault
  have decoded (hr : ¬ reserved) (hm : ¬ mode) (hs : ¬ size) :
      ∃ i, decode d = .ok i ∧ i.wellFormed = true ∧ (i.ii = true ↔ blend) := by
    obtain ⟨i, hi⟩ := exists_decode (not_not.mp hr) (not_le.mp hm) hs
    obtain ⟨hwf, hf⟩ := decode_ok_iff_fields.mp hi
    exact ⟨i, hi, hwf, by rw [← Bool.toNat_eq_one, hf.ii]⟩
  refine ⟨fun hr => ?_, fun hr hm => ?_, fun hr hm hs => ?_, fun hr hm hs hb hno => ?_,
    fun hr hm hs hb => ?_⟩
  · exact step_of_decode_error hhost herr (decode_reservedBits hr)
  · exact step_of_decode_error hhost herr (decode_illegalMode (not_not.mp hr) hm)
  · exact step_of_decode_error hhost herr (decode_illegalSize (not_not.mp hr) (not_le.mp hm) hs)
  · obtain ⟨i, hi, hwf, hii⟩ := decoded hr hm hs
    exact (step_of_decode_ok hhost hi).trans
      (iipredWithoutBlenderIsUnsupported i _ herr hwf (hii.mpr hb) hno)
  · obtain ⟨i, hi, hwf, hii⟩ := decoded hr hm hs
    have hblend : i.ii = true → s.cfg.hasII = true := fun h => hb (hii.mp h)
    refine ⟨i, hi, fun habsent => ?_, fun hadmit => ?_⟩
    · exact (step_of_decode_ok hhost hi).trans
        ((admissionDecidesTheAccessFault i { s with host := rest } herr hwf hblend).1 habsent)
    · have hready : Ready i { s with host := rest } := ⟨herr, hwf, hblend, hadmit⟩
      exact ⟨_, (step_of_decode_ok hhost hi).trans (exec_of_ready hready), herr, rfl, rfl⟩

end Sys2Proof.Machine

/-! Proofs about the common rules: a presented command is executed, RIGHT has no effect, and the multiply-round-shift
is close to the rounded division (40_common.md). -/

namespace Sys2Proof.Machine

/-! ## The command -/

/-- Settles O5, by the decoded case of a step. -/
theorem stepRunsTheDecodedCommand : Obligations.StepRunsTheDecodedCommand :=
  fun _ _ _ _ hhost hd => step_of_decode_ok hhost hd

section

variable (ii : Bool) (m : Mode) (o : Operands) (right : Bool)

theorem checkCommand_right (cfg : Config) :
    checkCommand cfg ii { o with right := right } = checkCommand cfg ii o := rfl

theorem readPhase_right (s : State) :
    readPhase ii { o with right := right } s = readPhase ii o s := rfl

theorem computePhase_right (sc : Scratch) :
    computePhase ii m { o with right := right } sc = computePhase ii m o sc := by
  cases m <;> rfl

theorem writeBack_right (out : Block) (mem : Memory) :
    writeBack { o with right := right } out mem = writeBack o out mem := rfl

/-- No check and no phase of a command looks at RIGHT (R136). -/
theorem runCommand_right (s : State) :
    runCommand ii m { o with right := right } s = runCommand ii m o s := by
  simp only [runCommand, perform, checkCommand_right, readPhase_right, computePhase_right,
    writeBack_right]

end

/-- Settles O42: a command is its skeleton, which does not look at RIGHT. -/
theorem rightFlagHasNoEffect : Obligations.RightFlagHasNoEffect := by
  intro ii m o right s
  simp only [exec_eq, instrOf_ii, instrOf_mode, instrOf_operands, runCommand_right]

/-! ## The scale table -/

/-- Settles O54, entry by entry. -/
theorem scaleTableFollowsItsRoundingRule : Obligations.ScaleTableFollowsItsRoundingRule :=
  ⟨rfl, by decide +kernel⟩

/-! ## Multiplying by almost `N` and dividing by `N`

`(v * m + c) / N` strays from `v` by an amount that grows with `v`, so a bound on it at the largest value holds for
every smaller one. -/

section

variable {m c N k u v : Nat}

theorem mul_add_div_le_add_of_le (hc : c < N) (huv : u ≤ v) (h : (v * m + c) / N ≤ v + k) :
    (u * m + c) / N ≤ u + k := by
  have hN : 0 < N := by omega
  rw [← Nat.lt_succ_iff, Nat.div_lt_iff_lt_mul hN] at h ⊢
  obtain ⟨x, rfl⟩ | ⟨x, rfl⟩ := (le_total N m).imp Nat.exists_eq_add_of_le Nat.exists_eq_add_of_le
  · have hx : u * x ≤ v * x := Nat.mul_le_mul_right x huv
    linarith
  · nlinarith

theorem le_mul_add_div_add_of_le (hN : 0 < N) (huv : u ≤ v) (h : v ≤ (v * m + c) / N + k) :
    u ≤ (u * m + c) / N + k := by
  rw [← Nat.add_mul_div_right _ _ hN, Nat.le_div_iff_mul_le hN] at h ⊢
  obtain ⟨x, rfl⟩ | ⟨x, rfl⟩ := (le_total N m).imp Nat.exists_eq_add_of_le Nat.exists_eq_add_of_le
  · nlinarith
  · have hx : u * x ≤ v * x := Nat.mul_le_mul_right x huv
    linarith

theorem mul_add_div_eq_of_le (hc : c < N) (huv : u ≤ v) (h : (v * m + c) / N = v) :
    (u * m + c) / N = u :=
  le_antisymm (mul_add_div_le_add_of_le (k := 0) hc huv h.le)
    (le_mul_add_div_add_of_le (k := 0) (by omega) huv h.ge)

end

/-! ## The multiply-round-shift as a rounded division -/

/-- The value whose rounded quotient by `i + 2` is `iscale_round(v, i)`; it is `v` itself up to what
`(i + 2) * ISCALE[i]` is off `2 ^ 16`. -/
def rescaled (v i : Nat) : Nat := (v * ((i + 2) * iscale i) + 32768 * ((i + 2) % 2)) / 65536

theorem iscaleRound_eq_roundDiv_rescaled (v i : Nat) :
    iscaleRound v i = roundDiv (rescaled v i) (i + 2) := by
  have hsum : (i + 2) * (v * iscale i + 32768) =
      v * ((i + 2) * iscale i) + 32768 * ((i + 2) % 2) + (i + 2) / 2 * 65536 := by
    have hd := Nat.div_add_mod (i + 2) 2
    linarith
  calc iscaleRound v i
      = (i + 2) * (v * iscale i + 32768) / ((i + 2) * 65536) := by
        rw [iscaleRound_eq, Nat.mul_div_mul_left _ _ (by omega)]
    _ = roundDiv (rescaled v i) (i + 2) := by
        rw [hsum, Nat.mul_comm (i + 2) 65536, ← Nat.div_div_eq_div_mul, Nat.add_mul_div_right _ _ (by omega)]
        rfl

theorem rescaled_eq_of_le {u v i : Nat} (huv : u ≤ v) (h : rescaled v i = v) : rescaled u i = u :=
  mul_add_div_eq_of_le (by omega) huv h

theorem iscaleRound_eq_roundDiv {u v i : Nat} (huv : u ≤ v) (h : rescaled v i = v) :
    iscaleRound u i = roundDiv u (i + 2) := by
  rw [iscaleRound_eq_roundDiv_rescaled, rescaled_eq_of_le huv h]

theorem roundDiv_le_add_one {x y d : Nat} (hd : 0 < d) (h : x ≤ y + d) :
    roundDiv x d ≤ roundDiv y d + 1 := by
  rw [roundDiv, roundDiv, ← Nat.add_div_right _ hd]
  exact Nat.div_le_div_right (by omega)

/-- Over the range the hardware uses, `rescaled` moves a value by at most `i + 2`. -/
theorem rescaled_near {v i : Nat} (hi : i < 64) (hv : v ≤ 255 * (i + 2)) :
    rescaled v i ≤ v + (i + 2) ∧ v ≤ rescaled v i + (i + 2) := by
  have hmax : ∀ i < 64, rescaled (255 * (i + 2)) i ≤ 255 * (i + 2) + (i + 2) ∧
      255 * (i + 2) ≤ rescaled (255 * (i + 2)) i + (i + 2) := by decide +kernel
  obtain ⟨hle, hge⟩ := hmax i hi
  exact ⟨mul_add_div_le_add_of_le (by omega) hv hle, le_mul_add_div_add_of_le (by omega) hv hge⟩

theorem iscaleRound_near_roundDiv {v i : Nat} (hi : i < 64) (hv : v ≤ 255 * (i + 2)) :
    iscaleRound v i ≤ roundDiv v (i + 2) + 1 ∧ roundDiv v (i + 2) ≤ iscaleRound v i + 1 := by
  obtain ⟨hle, hge⟩ := rescaled_near hi hv
  rw [iscaleRound_eq_roundDiv_rescaled]
  exact ⟨roundDiv_le_add_one (by omega) hle, roundDiv_le_add_one (by omega) hge⟩

/-- Only the last `i + 2` values below `v` have to be looked at one by one. -/
theorem iscaleRound_eq_roundDiv_below {u v i : Nat} (h : rescaled (v - (i + 2)) i = v - (i + 2))
    (hlast : ∀ k < i + 2, iscaleRound (v - (i + 2) + k) i = roundDiv (v - (i + 2) + k) (i + 2))
    (hu : u < v) : iscaleRound u i = roundDiv u (i + 2) := by
  obtain hle | hlt := le_or_gt u (v - (i + 2))
  · exact iscaleRound_eq_roundDiv hle h
  · obtain ⟨k, rfl⟩ := Nat.exists_eq_add_of_le hlt.le
    exact hlast k (by omega)

/-- Settles O55: `rescaled` leaves the values of the exact ranges alone, and moves no value by more than `i + 2`; the
listed differences are evaluated. -/
theorem scaledValueIsNearTheRoundedQuotient : Obligations.ScaledValueIsNearTheRoundedQuotient := by
  unfold Obligations.ScaledValueIsNearTheRoundedQuotient
  intro exact firstDifference
  refine ⟨fun i v hi hv => ?_, fun i v hi hv => ?_, fun i v => iscaleRound_near_roundDiv,
    fun i hi hne => ?_, fun i v hd => ?_⟩
  · have h1020 : ∀ i < 64, rescaled 1020 i = 1020 := by decide +kernel
    exact iscaleRound_eq_roundDiv hv (h1020 i hi)
  · have hexact : ∀ i ∈ exact, rescaled (255 * (i + 2)) i = 255 * (i + 2) := by decide +kernel
    exact iscaleRound_eq_roundDiv hv (hexact i hi)
  · have hcover : ∀ i < 64, i ∉ exact → i ∈ firstDifference.map Prod.fst := by decide +kernel
    simpa using hcover i hi hne
  · have hfirst : ∀ p ∈ firstDifference, p.2 ≤ 255 * (p.1 + 2) ∧
        iscaleRound p.2 p.1 ≠ roundDiv p.2 (p.1 + 2) ∧
        rescaled (p.2 - (p.1 + 2)) p.1 = p.2 - (p.1 + 2) ∧
        ∀ k < p.1 + 2, iscaleRound (p.2 - (p.1 + 2) + k) p.1 =
          roundDiv (p.2 - (p.1 + 2) + k) (p.1 + 2) := by decide +kernel
    obtain ⟨hle, hne, hbelow, hlast⟩ := hfirst (i, v) hd
    exact ⟨hle, hne, fun u => iscaleRound_eq_roundDiv_below hbelow hlast⟩

/-! ## The weighted average -/

theorem iscaleRound_mono {u v : Nat} (h : u ≤ v) (i : Nat) : iscaleRound u i ≤ iscaleRound v i := by
  rw [iscaleRound_eq, iscaleRound_eq]
  exact Nat.div_le_div_right (Nat.add_le_add_right (Nat.mul_le_mul_right _ h) _)

/-- The constant property of R124. -/
theorem iscaleRound_mul {x i : Nat} (hi : i < 64) (hx : x ≤ 255) :
    iscaleRound (x * (i + 2)) i = x := by
  have h255 : ∀ i < 64, (255 * ((i + 2) * iscale i) + 32768) / 65536 = 255 := by decide +kernel
  rw [iscaleRound_eq, Nat.mul_assoc]
  exact mul_add_div_eq_of_le (by omega) hx (h255 i hi)

/-- Settles O56: the weighted sum lies between the smaller and the larger sample times the sum of the weights. -/
theorem weightedAverageLiesBetween : Obligations.WeightedAverageLiesBetween := by
  intro wa wb a b hlo hhi ha hb
  obtain ⟨i, hi⟩ := Nat.exists_eq_add_of_le' hlo
  have hmin : min a b * (wa + wb) ≤ wa * a + wb * b := by
    have hleft := Nat.mul_le_mul_left wa (min_le_left a b)
    have hright := Nat.mul_le_mul_left wb (min_le_right a b)
    linarith
  have hmax : wa * a + wb * b ≤ max a b * (wa + wb) := by
    have hleft := Nat.mul_le_mul_left wa (le_max_left a b)
    have hright := Nat.mul_le_mul_left wb (le_max_right a b)
    linarith
  have hlower := iscaleRound_mono hmin i
  have hupper := iscaleRound_mono hmax i
  rw [hi, iscaleRound_mul (by omega) (by omega)] at hlower hupper
  rw [hi, Nat.add_sub_cancel]
  exact ⟨hlower, hupper⟩

end Sys2Proof.Machine

/-! Proofs about the four simple predictors: what each `PRED` command writes (41_simple_predictors.md). -/

namespace Sys2Proof.Machine

/-- Saturation as a bound from both sides (40_common.md R121). -/
theorem clamp255_eq (x : Int) : clamp255 x = (max 0 (min 255 x)).toNat := by
  unfold clamp255
  split
  next hneg => omega
  next hpos =>
    split
    next hover => omega
    next hin => omega

/-- The true-motion prediction inside the block is R154's clamped sum over the context. -/
theorem intraOf_tm_eq_tmOf (ii : Bool) (o : Operands) (s : State) {r c : Nat} (hr : r < height o)
    (hc : c < width o) :
    (intraOf ii .tm o s r c).toNat = tmOf (contextAbove o s.mem) (contextLeft o s.mem) r c := by
  rw [intraOf_tm ii o s hr hc, clamp255_eq, tmOf]

/-- Settles O18: the prediction is R151's mean of the context at every position. -/
theorem predDcWritesTheMean : Obligations.PredDcWritesTheMean := by
  intro o s hm hr
  exact ⟨selectedBy _, pred_result hm hr rfl _ fun r c _ _ => intraOf_dc false o s r c⟩

/-- Settles O19: the prediction at a column is the above sample of that column. -/
theorem predVCopiesTheRowAbove : Obligations.PredVCopiesTheRowAbove := by
  intro o s hm hr
  exact ⟨selectedBy _, pred_result hm hr rfl _ fun _ _ _ hc => intraOf_v false o s hc⟩

/-- Settles O20: the prediction at a row is the left sample of that row. -/
theorem predHCopiesTheLeftColumn : Obligations.PredHCopiesTheLeftColumn := by
  intro o s hm hr
  exact ⟨selectedBy _, pred_result hm hr rfl _ fun _ _ hrow _ => intraOf_h false o s hrow⟩

/-- Settles O21: the saturated prediction is R154's clamped sum. -/
theorem predTmClampsTheSum : Obligations.PredTmClampsTheSum := by
  intro o s hm hr
  exact ⟨selectedBy _, pred_result hm hr rfl _ fun _ _ hrow hc => intraOf_tm_eq_tmOf false o s hrow hc⟩

end Sys2Proof.Machine

/-! Proofs about the six directional predictors: what each `PRED` command writes, the order in which a kernel writes
and reads its square, the context it reads, and the relations between modes and shapes
(42_directional_predictors.md). -/

namespace Sys2Proof.Machine

/-! ## What a directional command writes -/

/-- A directional `PRED` command completes and writes samples that satisfy the equations of its mode. -/
theorem directional_result {i : Instr} {s : State} (hm : s.mem.wf = true) (hr : Ready i s)
    (hi : i.ii = false) (hd : directionalMode i.mode = true) :
    ∃ t P, exec i s = .next t
      ∧ IsDirectional i.mode (side i.operands) (contextAbove i.operands s.mem)
          (contextLeft i.operands s.mem) P
      ∧ WritesBlock i.operands P s t := by
  obtain ⟨t, hexec, hwrites⟩ := pred_result hm hr hi _ fun _ _ _ _ => rfl
  exact ⟨t, _, hexec, intraOf_directional false i.mode hd i.operands s, hwrites⟩

/-- Settles O22: the square of the D45 kernel satisfies the equations of R173. -/
theorem predD45FillsAntiDiagonals : Obligations.PredD45FillsAntiDiagonals :=
  fun _ _ hm hr => ⟨selectedBy _, directional_result hm hr rfl rfl⟩

/-- Settles O23: the square of the D135 kernel satisfies the closed form of R174. -/
theorem predD135CopiesAlongDiagonals : Obligations.PredD135CopiesAlongDiagonals :=
  fun _ _ hm hr => ⟨selectedBy _, directional_result hm hr rfl rfl⟩

/-- Settles O24: the square of the D117 kernel satisfies the closed form of R175. -/
theorem predD117PropagatesTwoRowsDown : Obligations.PredD117PropagatesTwoRowsDown :=
  fun _ _ hm hr => ⟨selectedBy _, directional_result hm hr rfl rfl⟩

/-- Settles O25: the square of the D153 kernel satisfies the closed form of R176. -/
theorem predD153PropagatesTwoColumnsRight : Obligations.PredD153PropagatesTwoColumnsRight :=
  fun _ _ hm hr => ⟨selectedBy _, directional_result hm hr rfl rfl⟩

/-- Settles O26: the square of the D27 kernel satisfies the equations of R177. -/
theorem predD27ProjectsTheLeftColumn : Obligations.PredD27ProjectsTheLeftColumn :=
  fun _ _ hm hr => ⟨selectedBy _, directional_result hm hr rfl rfl⟩

/-- Settles O27: the square of the D63 kernel satisfies the equations of R178. -/
theorem predD63ProjectsTheRowAbove : Obligations.PredD63ProjectsTheRowAbove :=
  fun _ _ hm hr => ⟨selectedBy _, directional_result hm hr rfl rfl⟩

/-! ## Cropping -/

/-- A directional prediction depends on the operands through the side and the extended context alone (R171, R181). -/
theorem intraOf_eq_of_same_square {m : Mode} (hd : directionalMode m = true) {o o' : Operands}
    {s s' : State} (hside : side o' = side o)
    (habove : ∀ j : Int, -1 ≤ j → j < side o → contextAbove o' s'.mem j = contextAbove o s.mem j)
    (hleft : ∀ j : Nat, j < side o → contextLeft o' s'.mem j = contextLeft o s.mem j) {r c : Nat}
    (hr : r < side o) (hc : c < side o) :
    intraOf false m o s r c = intraOf false m o' s' r c := by
  rw [intraOf_square _ _ _ _ hd, intraOf_square _ _ _ _ hd, hside]
  refine kernel_congr (legalSide_side o) hd (fun j hlo hhi => ?_) (fun j hj => ?_) hr hc
  · apply BitVec.eq_of_toNat_eq
    rw [aboveAt_adapt_readPhase _ _ _ hlo hhi, aboveAt_adapt_readPhase _ _ _ hlo (by omega),
      habove j hlo hhi]
  · apply BitVec.eq_of_toNat_eq
    rw [leftAt_adapt_readPhase _ _ _ hj, leftAt_adapt_readPhase _ _ _ (by omega), hleft j hj]

/-- What the last writer of an address leaves there is the command's prediction. -/
theorem read_of_exec_pred {m : Mode} {o : Operands} {s t : State} (hm : s.mem.wf = true)
    (hr : Ready (instrOf false m o) s) (h : exec (instrOf false m o) s = .next t) {r c : Nat}
    (hrow : r < height o) (hcol : c < width o) (hlast : LastWriter o r c) :
    t.mem.read (addr o.dst o.ds r c) = intraOf false m o s r c := by
  obtain rfl := eq_perform_of_exec hr h
  simp only [instrOf_ii, instrOf_mode, instrOf_operands]
  exact read_writeBack_last o _ hm hrow hcol hlast

/-- Settles O52: both commands run the kernel on the same side from the same context. -/
theorem nonSquareIsTheCroppedSquare : Obligations.NonSquareIsTheCroppedSquare := by
  intro m o o' s s' t t' hd hm hm' hwidth hheight habove hleft hr hr' h h' r c hrow hcol hlast hlast'
  have hb := side_bounds o
  have hside : side o' = side o := by rw [side, hwidth, hheight, max_self]
  rw [read_of_exec_pred hm hr h hrow hcol hlast,
    read_of_exec_pred hm' hr' h' (by omega) (by omega) hlast']
  exact intraOf_eq_of_same_square hd hside habove hleft (by omega) (by omega)

/-! ## The schedule of a kernel -/

/-- The cell an assignment writes. -/
def CellWrite.target (w : CellWrite) : Nat × Nat := (w.row, w.col)

/-- A scheduled kernel writes no marked cell. -/
theorem scheduled_unmarked {n mask : Nat} {k : List CellWrite} (h : scheduled n mask k = true) :
    ∀ w ∈ k, mask.testBit (cellBit w.row w.col) = false := by
  induction k generalizing mask with
  | nil => simp
  | cons v k ih =>
    obtain ⟨-, -, hv, -, hk⟩ := scheduled_cons.mp h
    intro w hw
    rcases List.mem_cons.mp hw with rfl | hw
    · exact hv
    · exact (Bool.or_eq_false_iff.mp (testBit_mark .. ▸ ih hk w hw)).1

/-- A scheduled kernel writes no cell twice. -/
theorem scheduled_nodup {n mask : Nat} {k : List CellWrite} (h : scheduled n mask k = true) :
    (k.map CellWrite.target).Nodup := by
  induction k generalizing mask with
  | nil => simp
  | cons v k ih =>
    obtain ⟨-, -, -, -, hk⟩ := scheduled_cons.mp h
    rw [List.map_cons, List.nodup_cons]
    refine ⟨fun hmem => ?_, ih hk⟩
    obtain ⟨w, hw, heq⟩ := List.mem_map.mp hmem
    obtain ⟨hrow, hcol⟩ := Prod.mk.inj heq
    have hfree := scheduled_unmarked hk w hw
    rw [hrow, hcol, testBit_mark] at hfree
    simp at hfree

/-- A kernel of side `n` writes exactly the cells of the square. -/
theorem mem_targets_iff {m : Mode} (hd : directionalMode m = true) {n : Nat} (hn : legalSide n)
    {r c : Nat} : (r, c) ∈ (kernelOf m n).map CellWrite.target ↔ r < n ∧ c < n := by
  rw [List.mem_map]
  constructor
  · rintro ⟨w, hw, heq⟩
    obtain ⟨rfl, rfl⟩ := Prod.mk.inj heq
    exact scheduled_bounds (scheduled_kernelOf m hn) w hw
  · rintro ⟨hr, hc⟩
    obtain ⟨w, hw, rfl, rfl⟩ := covered hn hd hr hc
    exact ⟨w, hw, rfl⟩

/-- The cells a sound right-hand side reads lie in the square and are marked. -/
theorem CellExpr.sound_cells {n mask : Nat} {e : CellExpr} (he : e.sound n mask = true) :
    ∀ p ∈ e.cells, p.1 < n ∧ p.2 < n ∧ mask.testBit (cellBit p.1 p.2) = true := by
  induction e with
  | above i => simp [CellExpr.cells]
  | left i => simp [CellExpr.cells]
  | cell r c => simpa [CellExpr.cells, CellExpr.sound, and_assoc] using he
  | avg a b iha ihb =>
    simp only [CellExpr.sound, Bool.and_eq_true] at he
    intro p hp
    exact (List.mem_append.mp hp).elim (iha he.1 p) (ihb he.2 p)
  | weighted wa a wb b i iha ihb =>
    simp only [CellExpr.sound, Bool.and_eq_true] at he
    intro p hp
    exact (List.mem_append.mp hp).elim (iha he.1.1.1 p) (ihb he.1.1.2 p)

/-- The rest of a scheduled kernel is scheduled after marks that its first part set. -/
theorem scheduled_append {n mask : Nat} {before rest : List CellWrite}
    (h : scheduled n mask (before ++ rest) = true) :
    ∃ mask', scheduled n mask' rest = true ∧ ∀ q, mask'.testBit q = true →
      mask.testBit q = true ∨ ∃ v ∈ before, cellBit v.row v.col = q := by
  induction before generalizing mask with
  | nil => exact ⟨mask, h, fun _ => .inl⟩
  | cons v before ih =>
    obtain ⟨-, -, -, -, hk⟩ := scheduled_cons.mp h
    obtain ⟨mask', hrest, hmarks⟩ := ih hk
    refine ⟨mask', hrest, fun q hq => ?_⟩
    rcases hmarks q hq with hq | ⟨u, hu, heq⟩
    · rw [testBit_mark, Bool.or_eq_true, decide_eq_true_eq] at hq
      exact hq.imp id fun heq => ⟨v, List.mem_cons_self, heq⟩
    · exact .inr ⟨u, List.mem_cons_of_mem _ hu, heq⟩

/-- A kernel scheduled from no marks reads only cells assigned before. -/
theorem scheduled_reads_before {n : Nat} (hn : n ≤ 64) {before after : List CellWrite} {w : CellWrite}
    (h : scheduled n 0 (before ++ w :: after) = true) {p : Nat × Nat} (hp : p ∈ w.value.cells) :
    p ∈ before.map CellWrite.target := by
  obtain ⟨mask, hrest, hmarks⟩ := scheduled_append h
  obtain ⟨-, -, -, hsound, -⟩ := scheduled_cons.mp hrest
  obtain ⟨-, hcol, hmark⟩ := CellExpr.sound_cells hsound p hp
  rcases hmarks _ hmark with hzero | ⟨v, hv, hbit⟩
  · simp at hzero
  · have hvcol := (scheduled_bounds h v (List.mem_append_left _ hv)).2
    obtain ⟨hr, hc⟩ := cellBit_inj (by omega) (by omega) hbit
    exact List.mem_map.mpr ⟨v, hv, Prod.ext hr hc⟩

/-- Settles O48: both parts are what the schedule of a kernel checks. -/
theorem kernelsWriteEachCellOnceBeforeReading :
    Obligations.KernelsWriteEachCellOnceBeforeReading := by
  intro m hd n hn
  have hk := scheduled_kernelOf m hn
  refine ⟨fun r c => ?_, fun before after w heq p hp => ?_⟩
  · change ((kernelOf m n).map CellWrite.target).count (r, c) = _
    rw [(scheduled_nodup hk).count]
    simp only [mem_targets_iff hd hn]
  · exact scheduled_reads_before (legalSide_facts hn).2.1 (heq ▸ hk) hp

/-! ## The context a kernel reads -/

/-- Some right-hand side of the kernel reads index `i`, where `indices` lists what a right-hand side reads of `above`
or of `left`. -/
def Reads {α : Type} (indices : CellExpr → List α) (k : List CellWrite) (i : α) : Prop :=
  ∃ w ∈ k, i ∈ indices w.value

section
variable {α : Type} (indices : CellExpr → List α) (i : α)

@[simp] theorem reads_nil : ¬ Reads indices [] i := by
  simp [Reads]

@[simp] theorem reads_cons (w : CellWrite) (k : List CellWrite) :
    Reads indices (w :: k) i ↔ i ∈ indices w.value ∨ Reads indices k i := by
  simp [Reads]

@[simp] theorem reads_append (k k' : List CellWrite) :
    Reads indices (k ++ k') i ↔ Reads indices k i ∨ Reads indices k' i := by
  simp only [Reads, List.mem_append, or_and_right, exists_or]

@[simp] theorem reads_map {β : Type} (l : List β) (f : β → CellWrite) :
    Reads indices (l.map f) i ↔ ∃ x ∈ l, i ∈ indices (f x).value := by
  simp [Reads]

@[simp] theorem reads_flatMap {β : Type} (l : List β) (f : β → List CellWrite) :
    Reads indices (l.flatMap f) i ↔ ∃ x ∈ l, Reads indices (f x) i := by
  simp only [Reads, List.mem_flatMap]
  exact ⟨fun ⟨w, ⟨x, hx, hw⟩, hi⟩ => ⟨x, hx, w, hw, hi⟩, fun ⟨x, hx, w, hw, hi⟩ => ⟨w, ⟨x, hx, hw⟩, hi⟩⟩

end

@[simp] theorem aboves_edgeD27 (r c : Nat) : (edgeD27 r c).aboves = [] := by
  unfold edgeD27
  split <;> rfl

@[simp] theorem mem_lefts_edgeD27 {r c i : Nat} :
    i ∈ (edgeD27 r c).lefts ↔ i = r + 1 ∨ c % 2 = 0 ∧ i = r := by
  unfold edgeD27
  split
  next hodd => simp [CellExpr.lefts, show ¬ c % 2 = 0 by omega]
  next heven => simp [CellExpr.lefts, show c % 2 = 0 by omega, or_comm]

@[simp] theorem lefts_edgeD63 (r c : Nat) : (edgeD63 r c).lefts = [] := by
  unfold edgeD63
  split <;> rfl

@[simp] theorem mem_aboves_edgeD63 {r c : Nat} {i : Int} :
    i ∈ (edgeD63 r c).aboves ↔ i = c + 1 ∨ r % 2 = 0 ∧ i = c := by
  unfold edgeD63
  split
  next hodd => simp [CellExpr.aboves, show ¬ r % 2 = 0 by omega]
  next heven => simp [CellExpr.aboves, show r % 2 = 0 by omega, or_comm]

section
variable {n : Nat} (hn : 4 ≤ n)
include hn

/-- D45 reads `above[1..n-1]`. -/
theorem reads_aboves_kernelD45 {i : Int} :
    Reads CellExpr.aboves (kernelD45 n) i ↔ 1 ≤ i ∧ i ≤ n - 1 := by
  have hloops : Reads CellExpr.aboves (kernelD45 n) i ↔
      (∃ d : Nat, d ≤ n - 2 ∧ (∃ c, c ≤ d) ∧ i = d + 1) ∨ (∃ c, c ≤ n - 1) ∧ i = n - 1 := by
    simp [kernelD45, CellExpr.aboves]
  rw [hloops]
  constructor
  · rintro (⟨d, hd, -, rfl⟩ | ⟨-, rfl⟩) <;> omega
  · rintro ⟨hlo, hhi⟩
    exact .inl ⟨(i - 1).toNat, by omega, ⟨0, Nat.zero_le _⟩, by omega⟩

/-- D45 reads `left[1..n-1]`. -/
theorem reads_lefts_kernelD45 {i : Nat} :
    Reads CellExpr.lefts (kernelD45 n) i ↔ 1 ≤ i ∧ i ≤ n - 1 := by
  have hloops : Reads CellExpr.lefts (kernelD45 n) i ↔
      (∃ d ≤ n - 2, (∃ c, c ≤ d) ∧ i = d + 1) ∨ (∃ c, c ≤ n - 1) ∧ i = n - 1 := by
    simp [kernelD45, CellExpr.lefts]
  rw [hloops]
  constructor
  · rintro (⟨d, hd, -, rfl⟩ | ⟨-, rfl⟩) <;> omega
  · rintro ⟨hlo, hhi⟩
    exact .inl ⟨i - 1, by omega, ⟨0, Nat.zero_le _⟩, by omega⟩

/-- D135 reads `above[-1..n-2]`. -/
theorem reads_aboves_kernelD135 {i : Int} :
    Reads CellExpr.aboves (kernelD135 n) i ↔ -1 ≤ i ∧ i ≤ n - 2 := by
  have hloops : Reads CellExpr.aboves (kernelD135 n) i ↔ ∃ c : Nat, c ≤ n - 1 ∧ i = c - 1 := by
    simp [kernelD135, CellExpr.aboves]
  rw [hloops]
  constructor
  · rintro ⟨c, hc, rfl⟩
    omega
  · rintro ⟨hlo, hhi⟩
    exact ⟨(i + 1).toNat, by omega, by omega⟩

/-- D135 reads `left[0..n-2]`. -/
theorem reads_lefts_kernelD135 {i : Nat} :
    Reads CellExpr.lefts (kernelD135 n) i ↔ i ≤ n - 2 := by
  have hloops : Reads CellExpr.lefts (kernelD135 n) i ↔
      ∃ r, (1 ≤ r ∧ r ≤ n - 1) ∧ i = r - 1 := by
    simp [kernelD135, CellExpr.lefts]
  rw [hloops]
  constructor
  · rintro ⟨r, hr, rfl⟩
    omega
  · intro hi
    exact ⟨i + 1, by omega, rfl⟩

/-- D117 reads `above[-1..n-1]`. -/
theorem reads_aboves_kernelD117 {i : Int} :
    Reads CellExpr.aboves (kernelD117 n) i ↔ -1 ≤ i ∧ i ≤ n - 1 := by
  have hloops : Reads CellExpr.aboves (kernelD117 n) i ↔
      (∃ c : Nat, c ≤ n - 1 ∧ (i = c - 1 ∨ i = c)) ∨ ∃ c : Nat, c ≤ n - 1 ∧ i = c - 1 := by
    simp [kernelD117, CellExpr.aboves]
  rw [hloops]
  constructor
  · rintro (⟨c, hc, rfl | rfl⟩ | ⟨c, hc, rfl⟩) <;> omega
  · rintro ⟨hlo, hhi⟩
    exact .inl ⟨i.toNat, by omega, by omega⟩

/-- D117 reads `left[0..n-3]`. -/
theorem reads_lefts_kernelD117 {i : Nat} :
    Reads CellExpr.lefts (kernelD117 n) i ↔ i ≤ n - 3 := by
  have hloops : Reads CellExpr.lefts (kernelD117 n) i ↔
      ∃ r, (2 ≤ r ∧ r ≤ n - 1) ∧ i = r - 2 := by
    simp [kernelD117, CellExpr.lefts]
  rw [hloops]
  constructor
  · rintro ⟨r, hr, rfl⟩
    omega
  · intro hi
    exact ⟨i + 2, by omega, rfl⟩

/-- D153 reads `above[-1..n-3]`. -/
theorem reads_aboves_kernelD153 {i : Int} :
    Reads CellExpr.aboves (kernelD153 n) i ↔ -1 ≤ i ∧ i ≤ n - 3 := by
  have hloops : Reads CellExpr.aboves (kernelD153 n) i ↔
      i = -1 ∨ ∃ c : Nat, (2 ≤ c ∧ c ≤ n - 1) ∧ i = c - 2 := by
    simp [kernelD153, CellExpr.aboves]
  rw [hloops]
  constructor
  · rintro (rfl | ⟨c, hc, rfl⟩) <;> omega
  · rintro ⟨hlo, hhi⟩
    rcases eq_or_ne i (-1) with hcorner | hrow
    · exact .inl hcorner
    · exact .inr ⟨(i + 2).toNat, by omega, by omega⟩

omit hn in
/-- D153 reads `left[0..n-1]`. -/
theorem reads_lefts_kernelD153 {i : Nat} :
    Reads CellExpr.lefts (kernelD153 n) i ↔ i ≤ n - 1 := by
  have hloops : Reads CellExpr.lefts (kernelD153 n) i ↔
      i = 0 ∨ (∃ r, (1 ≤ r ∧ r ≤ n - 1) ∧ (i = r - 1 ∨ i = r))
        ∨ ∃ r, (1 ≤ r ∧ r ≤ n - 1) ∧ i = r - 1 := by
    simp [kernelD153, CellExpr.lefts]
  rw [hloops]
  constructor
  · rintro (rfl | ⟨r, hr, rfl | rfl⟩ | ⟨r, hr, rfl⟩) <;> omega
  · intro hi
    rcases Nat.eq_zero_or_pos i with hzero | hpos
    · exact .inl hzero
    · exact .inr (.inl ⟨i, ⟨hpos, hi⟩, .inr rfl⟩)

/-- D27 reads `above[2..n-1]`. -/
theorem reads_aboves_kernelD27 {i : Int} :
    Reads CellExpr.aboves (kernelD27 n) i ↔ 2 ≤ i ∧ i ≤ n - 1 := by
  have hloops : Reads CellExpr.aboves (kernelD27 n) i ↔ ∃ c : Nat, c ≤ n - 3 ∧ i = c + 2 := by
    simp [kernelD27, CellExpr.aboves]
  rw [hloops]
  constructor
  · rintro ⟨c, hc, rfl⟩
    omega
  · rintro ⟨hlo, hhi⟩
    exact ⟨(i - 2).toNat, by omega, by omega⟩

/-- D27 reads `left[0..n-1]`: the whole positions of its weighted rows, of its projection and of its corner. -/
theorem reads_lefts_kernelD27 {i : Nat} :
    Reads CellExpr.lefts (kernelD27 n) i ↔ i ≤ n - 1 := by
  have hloops : Reads CellExpr.lefts (kernelD27 n) i ↔
      (∃ c ≤ n - 3, i = 1 ∨ c % 2 = 0 ∧ i = 0)
        ∨ (∃ r, (1 ≤ r ∧ r ≤ n / 2 - 2) ∧ ∃ c ≤ n - 3 - 2 * r, i = r + 1 ∨ c % 2 = 0 ∧ i = r)
        ∨ (∃ r, (n / 2 - 1 ≤ r ∧ r ≤ n - 2) ∧ ∃ c ≤ n - 1, i = r + 1 ∨ c % 2 = 0 ∧ i = r)
        ∨ i = n - 1 := by
    simp [kernelD27, CellExpr.lefts]
  rw [hloops]
  constructor
  · rintro (⟨c, hc, rfl | ⟨-, rfl⟩⟩ | ⟨r, hr, c, hc, rfl | ⟨-, rfl⟩⟩ | ⟨r, hr, c, hc, rfl | ⟨-, rfl⟩⟩ | rfl)
      <;> omega
  · intro hi
    by_cases hfirst : i = 0
    · exact .inl ⟨0, by omega, .inr ⟨rfl, hfirst⟩⟩
    by_cases hrows : i ≤ n / 2 - 2
    · exact .inr (.inl ⟨i, by omega, 0, by omega, .inr ⟨rfl, rfl⟩⟩)
    by_cases hlast : i = n - 1
    · exact .inr (.inr (.inr hlast))
    · exact .inr (.inr (.inl ⟨i, by omega, 0, by omega, .inr ⟨rfl, rfl⟩⟩))

/-- D63 reads `above[0..n-1]`: the whole positions of its weighted columns, of its projection and of its corner. -/
theorem reads_aboves_kernelD63 {i : Int} :
    Reads CellExpr.aboves (kernelD63 n) i ↔ 0 ≤ i ∧ i ≤ n - 1 := by
  have hloops : Reads CellExpr.aboves (kernelD63 n) i ↔
      (∃ r ≤ n - 3, i = 1 ∨ r % 2 = 0 ∧ i = 0)
        ∨ (∃ c : Nat, (1 ≤ c ∧ c ≤ n / 2 - 2)
            ∧ ∃ r ≤ n - 3 - 2 * c, i = c + 1 ∨ r % 2 = 0 ∧ i = c)
        ∨ (∃ c : Nat, (n / 2 - 1 ≤ c ∧ c ≤ n - 2) ∧ ∃ r ≤ n - 1, i = c + 1 ∨ r % 2 = 0 ∧ i = c)
        ∨ i = n - 1 := by
    simp [kernelD63, CellExpr.aboves]
  rw [hloops]
  constructor
  · rintro (⟨r, hr, rfl | ⟨-, rfl⟩⟩ | ⟨c, hc, r, hr, rfl | ⟨-, rfl⟩⟩ | ⟨c, hc, r, hr, rfl | ⟨-, rfl⟩⟩ | rfl)
      <;> omega
  · rintro ⟨hlo, hhi⟩
    obtain ⟨c, rfl⟩ := Int.eq_ofNat_of_zero_le hlo
    by_cases hfirst : c = 0
    · exact .inl ⟨0, by omega, .inr ⟨rfl, by omega⟩⟩
    by_cases hcolumns : c ≤ n / 2 - 2
    · exact .inr (.inl ⟨c, by omega, 0, by omega, .inr ⟨rfl, rfl⟩⟩)
    by_cases hlast : c = n - 1
    · exact .inr (.inr (.inr (by omega)))
    · exact .inr (.inr (.inl ⟨c, by omega, 0, by omega, .inr ⟨rfl, rfl⟩⟩))

/-- D63 reads `left[2..n-1]`. -/
theorem reads_lefts_kernelD63 {i : Nat} :
    Reads CellExpr.lefts (kernelD63 n) i ↔ 2 ≤ i ∧ i ≤ n - 1 := by
  have hloops : Reads CellExpr.lefts (kernelD63 n) i ↔ ∃ r ≤ n - 3, i = r + 2 := by
    simp [kernelD63, CellExpr.lefts]
  rw [hloops]
  constructor
  · rintro ⟨r, hr, rfl⟩
    omega
  · rintro ⟨hlo, hhi⟩
    exact ⟨i - 2, by omega, by omega⟩

end

/-- Settles O49: the loops of each kernel, row by row of R179's table. -/
theorem kernelsReadTheListedContext : Obligations.KernelsReadTheListedContext := by
  intro n hn aboves lefts
  have h4 : 4 ≤ n := (legalSide_facts hn).1
  exact ⟨fun _ => reads_aboves_kernelD45 h4, fun _ => reads_lefts_kernelD45 h4,
    fun _ => reads_aboves_kernelD135 h4, fun _ => reads_lefts_kernelD135 h4,
    fun _ => reads_aboves_kernelD117 h4, fun _ => reads_lefts_kernelD117 h4,
    fun _ => reads_aboves_kernelD153 h4, fun _ => reads_lefts_kernelD153,
    fun _ => reads_aboves_kernelD27 h4, fun _ => reads_lefts_kernelD27 h4,
    fun _ => reads_aboves_kernelD63 h4, fun _ => reads_lefts_kernelD63 h4⟩

/-! ## The transposition -/

/-- The equations of R177 are those of R178 with rows and columns, and the two edges, exchanged. -/
theorem IsD27.transpose {n : Nat} {A : Int → Nat} {L : Nat → Nat} {P : Nat → Nat → Nat}
    (h : IsD27 n A L P) (hn : 1 ≤ n) :
    IsD63 n (fun j => L j.toNat) (fun j => A j) fun r c => P c r where
  firstColumn r hr := h.firstRow r hr
  columns r c hc hr := h.rows c r hc hr
  project r c hr hlo hhi := h.project c r hr hlo hhi
  cornerFirst := by
    rw [h.cornerFirst, show ((n : Int) - 1).toNat = n - 1 by omega]
  corner r c hr hc hpos hk := h.corner c r hc hr hpos hk

theorem edgeAbove_congr {A A' : Int → Nat} {n : Nat} (hA : ∀ j : Nat, j < n → A j = A' j) {r c : Nat}
    (hc : c + 1 < n) : edgeAbove A r c = edgeAbove A' r c := by
  have h1 : A ((c : Int) + 1) = A' ((c : Int) + 1) := by exact_mod_cast hA (c + 1) hc
  rw [edgeAbove, edgeAbove, h1, hA c (by omega)]

/-- The equations of R178 determine every sample from the context without the corner. The recursion of the weighted
columns goes two rows down and one column to the left, that of the corner up or to the left. -/
theorem IsD63.unique {n : Nat} (hn : 4 ≤ n ∧ n % 2 = 0) {A A' : Int → Nat} {L L' : Nat → Nat}
    {P Q : Nat → Nat → Nat} (hP : IsD63 n A L P) (hQ : IsD63 n A' L' Q)
    (hA : ∀ j : Nat, j < n → A j = A' j) (hL : ∀ j : Nat, j < n → L j = L' j) (r c : Nat)
    (hr : r < n) (hc : c < n) : P r c = Q r c := by
  by_cases hweighted : c + r / 2 + 2 ≤ n / 2
  · have hedge := edgeAbove_congr (r := r) hA (show c + 1 < n by omega)
    rcases Nat.eq_zero_or_pos c with rfl | hpos
    · rw [hP.firstColumn r (by omega), hQ.firstColumn r (by omega), hedge, hL _ (by omega)]
    · rw [hP.columns r c hpos hweighted, hQ.columns r c hpos hweighted, hedge,
        IsD63.unique hn hP hQ hA hL (r + 2) (c - 1) (by omega) (by omega)]
  by_cases hproject : c + r / 2 + 2 ≤ n
  · rw [hP.project r c hr (by omega) hproject, hQ.project r c hr (by omega) hproject]
    exact edgeAbove_congr hA (by omega)
  rcases Nat.eq_zero_or_pos r with rfl | hpos
  · obtain rfl : c = n - 1 := by omega
    have hlast : A ((n : Int) - 1) = A' ((n : Int) - 1) := by
      have := hA (n - 1) hc
      rwa [show ((n - 1 : Nat) : Int) = (n : Int) - 1 by omega] at this
    rw [hP.cornerFirst, hQ.cornerFirst, hlast,
      IsD63.unique hn hP hQ hA hL 0 (n - 2) (by omega) (by omega)]
  · rw [hP.corner r c hr hc hpos (by omega), hQ.corner r c hr hc hpos (by omega),
      IsD63.unique hn hP hQ hA hL r (c - 1) hr (by omega),
      IsD63.unique hn hP hQ hA hL (r - 1) c (by omega) hc]
termination_by 3 * c + r

/-- Settles O50: the transposed D27 square and the D63 square satisfy the same equations, which determine them. -/
theorem d27IsTheTransposeOfD63 : Obligations.D27IsTheTransposeOfD63 := by
  intro n hn s t hctx r c hr hc
  obtain ⟨h4, -, hmod⟩ := legalSide_facts hn
  have h27 := isD27_kernel hn s (fun _ _ _ => rfl) (fun _ _ => rfl)
  have h63 := isD63_kernel hn t (fun _ _ _ => rfl) (fun _ _ => rfl)
  refine BitVec.eq_of_toNat_eq ((h27.transpose (by omega)).unique ⟨h4, by omega⟩ h63
    (fun j hj => ?_) (fun j hj => ?_) c r hc hr)
  · rw [Int.toNat_natCast, (hctx j hj).1]
  · rw [(hctx j hj).2]

/-! ## A constant context -/

/-- A scratch square that holds `x` everywhere. -/
def constantSquare (x : Nat) : Square := .replicate 64 (.replicate 64 (toSample x))

theorem squareGet_constantSquare {x : Nat} (hx : x ≤ 255) {r c : Nat} (hr : r < 64) (hc : c < 64) :
    (squareGet (constantSquare x) r c).toNat = x := by
  rw [squareGet, dif_pos hr, constantSquare, Vector.getElem_replicate, rowGet, dif_pos hc,
    Vector.getElem_replicate, toSample_toNat hx]

section
variable {n x : Nat} (hx : x ≤ 255) {s : Scratch}
  (habove : ∀ j : Int, -1 ≤ j → j < n → (s.aboveAt j).toNat = x)
  (hleft : ∀ j : Nat, j < n → (s.leftAt j).toNat = x)
include hx habove hleft

/-- A sound right-hand side over a constant context and constant cells has that constant value (R124). -/
theorem CellExpr.eval_constant (hsq : ∀ r c, r < n → c < n → (squareGet s.sq r c).toNat = x) {mask : Nat}
    {e : CellExpr} (he : e.sound n mask = true) : e.eval s = x := by
  induction e with
  | above i =>
    simp only [CellExpr.sound, Bool.and_eq_true, decide_eq_true_eq] at he
    exact habove i he.1 he.2
  | left i =>
    simp only [CellExpr.sound, decide_eq_true_eq] at he
    exact hleft i he
  | cell r c =>
    simp only [CellExpr.sound, Bool.and_eq_true, decide_eq_true_eq] at he
    exact hsq r c he.1.1 he.1.2
  | avg a b iha ihb =>
    simp only [CellExpr.sound, Bool.and_eq_true] at he
    rw [CellExpr.eval, iha he.1, ihb he.2, avg2_eq]
    omega
  | weighted wa a wb b i iha ihb =>
    simp only [CellExpr.sound, Bool.and_eq_true, decide_eq_true_eq] at he
    obtain ⟨⟨⟨ha, hb⟩, hi⟩, hsum⟩ := he
    rw [CellExpr.eval, iha ha, ihb hb, ← Nat.add_mul, hsum, Nat.mul_comm, iscaleRound_mul hi hx]

/-- A scheduled kernel over a constant context keeps a constant square constant. -/
theorem runKernel_keeps_constant (hn : n ≤ 64) {k : List CellWrite} {mask : Nat}
    (hk : scheduled n mask k = true)
    (hsq : ∀ r c, r < n → c < n → (squareGet s.sq r c).toNat = x) {r c : Nat} (hr : r < n) (hc : c < n) :
    (squareGet (runKernel k s).sq r c).toNat = x := by
  induction k generalizing mask s with
  | nil => exact hsq r c hr hc
  | cons w k ih =>
    obtain ⟨-, -, -, hsound, hrest⟩ := scheduled_cons.mp hk
    refine ih (s := runWrite s w) habove hleft hrest fun r c hr hc => ?_
    rw [squareGet_runWrite _ _ (by omega) (by omega)]
    split
    · rw [CellExpr.eval_constant hx habove hleft hsq hsound, toSample_toNat hx]
    · exact hsq r c hr hc

/-- A directional kernel over a constant context predicts that constant (R172 (f)): what the square held before does
not matter (`kernel_congr`), so it may have held the constant. -/
theorem kernel_constant (hn : legalSide n) {m : Mode} (hd : directionalMode m = true) {r c : Nat}
    (hr : r < n) (hc : c < n) : (squareGet (runKernel (kernelOf m n) s).sq r c).toNat = x := by
  have h64 := (legalSide_facts hn).2.1
  rw [kernel_congr hn hd (s := s) (t := { s with sq := constantSquare x }) (fun _ _ _ => rfl)
    (fun _ _ => rfl) hr hc]
  exact runKernel_keeps_constant (s := { s with sq := constantSquare x }) hx habove hleft h64
    (scheduled_kernelOf m hn)
    (fun _ _ hr hc => squareGet_constantSquare hx (by omega) (by omega)) hr hc

end

/-- The rounded mean of `d` equal values is that value. -/
theorem roundDiv_mul_self {d : Nat} (hd : 0 < d) (x : Nat) : roundDiv (d * x) d = x := by
  rw [roundDiv, Nat.mul_add_div hd, Nat.div_eq_of_lt (Nat.div_lt_self hd (by omega)), Nat.add_zero]

/-- The DC value of a constant context. With neither edge available the context is not constant: it holds 127 above
and 129 on the left. -/
theorem dcOf_constant {o : Operands} {m : Memory} {x : Nat}
    (habove : ∀ j : Int, -1 ≤ j → j < side o → contextAbove o m j = x)
    (hleft : ∀ j : Nat, j < side o → contextLeft o m j = x) :
    dcOf o (contextAbove o m) (contextLeft o m) = x := by
  have hb := side_bounds o
  have hw := width_bounds o
  have hh := height_bounds o
  have hsumAbove : ∑ c ∈ Finset.range (width o), contextAbove o m c = width o * x := by
    rw [Finset.sum_const_nat fun c hc => ?_, Finset.card_range]
    exact habove c (by omega) (by rw [Finset.mem_range] at hc; omega)
  have hsumLeft : ∑ r ∈ Finset.range (height o), contextLeft o m r = height o * x := by
    rw [Finset.sum_const_nat fun r hr => ?_, Finset.card_range]
    exact hleft r (by rw [Finset.mem_range] at hr; omega)
  unfold dcOf
  rw [hsumAbove, hsumLeft]
  cases hup : o.up <;> cases hl : o.left
  case false.false =>
    have h127 : 127 = x := by simpa [contextAbove, hup] using habove 0 (by omega) (by omega)
    have h129 : 129 = x := by simpa [contextLeft, hl] using hleft 0 (by omega)
    omega
  case false.true => simpa [roundDiv] using roundDiv_mul_self (d := height o) (by omega) x
  case true.false => simpa [roundDiv] using roundDiv_mul_self (d := width o) (by omega) x
  case true.true =>
    simpa [roundDiv, Nat.add_mul] using roundDiv_mul_self (d := width o + height o) (by omega) x

/-- Every mode predicts a constant context as that constant, inside the block. -/
theorem intraOf_constant (m : Mode) {o : Operands} {s : State} {x : Nat}
    (habove : ∀ j : Int, -1 ≤ j → j < side o → contextAbove o s.mem j = x)
    (hleft : ∀ j : Nat, j < side o → contextLeft o s.mem j = x) {r c : Nat}
    (hr : r < height o) (hc : c < width o) : (intraOf false m o s r c).toNat = x := by
  have hb := side_bounds o
  have hx : x ≤ 255 := hleft 0 (by omega) ▸ contextLeft_le o s.mem 0
  by_cases hd : directionalMode m = true
  · rw [intraOf_square _ _ _ _ hd]
    exact kernel_constant hx
      (fun j hlo hhi => (aboveAt_adapt_readPhase false o s hlo hhi).trans (habove j hlo hhi))
      (fun j hj => (leftAt_adapt_readPhase false o s hj).trans (hleft j hj))
      (legalSide_side o) hd (by omega) (by omega)
  cases m
  case dc => rw [intraOf_dc, dcOf_constant habove hleft]
  case v => rw [intraOf_v _ _ _ hc, habove c (by omega) (by omega)]
  case h => rw [intraOf_h _ _ _ hr, hleft r (by omega)]
  case tm =>
    rw [intraOf_tm_eq_tmOf _ _ _ hr hc, tmOf, hleft r (by omega), habove c (by omega) (by omega),
      habove (-1) (by omega) (by omega)]
    omega
  all_goals exact absurd rfl hd

/-- Settles O51: the block is the constant, and every written address has a last writer. -/
theorem constantContextIsPredictedConstant : Obligations.ConstantContextIsPredictedConstant := by
  intro i s k hm hi hr habove hleft
  obtain ⟨t, hexec, hwrites⟩ := pred_result hm hr hi (fun _ _ => k) fun _ _ hrow hcol =>
    intraOf_constant i.mode habove hleft hrow hcol
  refine ⟨t, hexec, fun a ha => ?_⟩
  obtain ⟨r, c, hrow, hcol, rfl, hlast⟩ := lastWriter_exists ha
  exact hwrites.stored r c hrow hcol hlast

end Sys2Proof.Machine

/-! Proofs about the interintra blender: the laws of the blend, the range of the weights, and what each `IIPRED`
command writes (43_interintra_blender.md). -/

namespace Sys2Proof.Machine

/-! ## The blend -/

/-- The two weights add up to 256, so the rounding constant 127 is lost. -/
theorem blendW_self {w : Nat} (hw : w ≤ 256) (p : Nat) : blendW w p p = p := by
  have hsum : (256 - w) * p + w * p = 256 * p := by rw [← Nat.add_mul, Nat.sub_add_cancel hw]
  rw [blendW_eq, hsum]
  omega

theorem blendW_mono (w : Nat) {p p' q q' : Nat} (hp : p ≤ p') (hq : q ≤ q') :
    blendW w p q ≤ blendW w p' q' := by
  rw [blendW_eq, blendW_eq]
  gcongr

theorem mixed_128 (p q : Nat) : mixed 128 p q = (p + q) / 2 := by
  unfold mixed
  omega

/-- Settles O57: the blend is monotone in both samples and fixes equal ones, so it lies between the blend of two
minima and that of two maxima. -/
theorem blendLiesBetween : Obligations.BlendLiesBetween := by
  intro w p q hw _ _
  refine ⟨blendW_eq w p q, ?_, ?_, blendW_self hw p, ?_, ?_, ?_⟩
  · calc min p q = blendW w (min p q) (min p q) := (blendW_self hw _).symm
      _ ≤ blendW w p q := blendW_mono w (min_le_left p q) (min_le_right p q)
  · calc blendW w p q ≤ blendW w (max p q) (max p q) :=
          blendW_mono w (le_max_left p q) (le_max_right p q)
      _ = max p q := blendW_self hw _
  · rw [blendW_eq]
    omega
  · rw [blendW_eq]
    omega
  · rw [blendW_eq]
    exact mixed_128 p q

/-! ## The weights -/

section
variable (o : Operands) (r c : Nat)

/-! The weight of each mode (R204) in terms of the two axes' decay. -/

@[simp] theorem weight_dc : weight .dc o r c = 128 := rfl
@[simp] theorem weight_tm : weight .tm o r c = 128 := rfl
@[simp] theorem weight_v : weight .v o r c = decay o r := rfl
@[simp] theorem weight_h : weight .h o r c = decay o c := rfl
@[simp] theorem weight_d45 : weight .d45 o r c = (decay o r + decay o c) / 2 := rfl
@[simp] theorem weight_d135 : weight .d135 o r c = decay o (min r c) := rfl
@[simp] theorem weight_d117 : weight .d117 o r c = (3 * decay o r + decay o c) / 4 :=
  Nat.shiftRight_eq_div_pow _ 2
@[simp] theorem weight_d63 : weight .d63 o r c = (3 * decay o r + decay o c) / 4 :=
  Nat.shiftRight_eq_div_pow _ 2
@[simp] theorem weight_d153 : weight .d153 o r c = (3 * decay o c + decay o r) / 4 :=
  Nat.shiftRight_eq_div_pow _ 2
@[simp] theorem weight_d27 : weight .d27 o r c = (3 * decay o c + decay o r) / 4 :=
  Nat.shiftRight_eq_div_pow _ 2

end

/-- No entry of the table is larger than the one before it. -/
theorem w1d_succ_le : ∀ i, i < 63 → w1d (i + 1) ≤ w1d i := by decide +kernel

theorem w1d_antitone {i j : Nat} (hij : i ≤ j) (hj : j < 64) : w1d j ≤ w1d i := by
  induction j, hij using Nat.le_induction with
  | base => exact le_rfl
  | succ j _ ih => exact (w1d_succ_le j (by omega)).trans (ih (by omega))

/-- The table decays to its last entry. -/
theorem le_w1d {i : Nat} (hi : i < 64) : 67 ≤ w1d i := w1d_antitone (j := 63) (by omega) (by omega)

/-- The size factor keeps every position of the working square inside the table (R202). -/
theorem mul_sizeFactor_lt {o : Operands} {p : Nat} (hp : p < side o) : p * sizeFactor o < 64 := by
  have hb := side_bounds o
  calc p * sizeFactor o < side o * sizeFactor o :=
        Nat.mul_lt_mul_of_pos_right hp (Nat.div_pos (by omega) (by omega))
    _ ≤ 64 := Nat.mul_div_le 64 (side o)

theorem le_decay {o : Operands} {p : Nat} (hp : p < side o) : 67 ≤ decay o p :=
  le_w1d (mul_sizeFactor_lt hp)

/-- Every weight of a block is 128, a decay, or a mean of decays. -/
theorem le_weight (m : Mode) {o : Operands} {r c : Nat} (hr : r < side o) (hc : c < side o) :
    67 ≤ weight m o r c := by
  have hrow := le_decay hr
  have hcol := le_decay hc
  have hmin := le_decay (show min r c < side o by omega)
  cases m
  case dc | tm => simp
  case v => simpa using hrow
  case h => simpa using hcol
  case d135 => simpa using hmin
  case d45 | d117 | d63 | d153 | d27 =>
    simp only [weight_d45, weight_d117, weight_d63, weight_d153, weight_d27]
    omega

/-- Settles O58: the table entry by entry, its decay from each entry to the next, and the bounds of the weights. -/
theorem weightsDecayWithinTheTable : Obligations.WeightsDecayWithinTheTable := by
  refine ⟨⟨rfl, rfl, rfl, fun _ _ => w1d_antitone, by decide⟩, fun m o r c hr hc => ?_⟩
  have hb := side_bounds o
  exact ⟨le_weight m (by omega) (by omega), weight_le m o r c⟩

/-! ## What an `IIPRED` command writes -/

/-- An `IIPRED` command completes and writes the blend, at the weights `W` of its mode, of the inter block with the
prediction `P`. -/
theorem iipred_writes {i : Instr} {s : State} (hm : s.mem.wf = true) (hr : Ready i s)
    (hi : i.ii = true) {W P : Nat → Nat → Nat} (hW : ∀ r c, weight i.mode i.operands r c = W r c)
    (hP : ∀ r c, r < height i.operands → c < width i.operands →
      (intraOf true i.mode i.operands s r c).toNat = P r c) :
    ∃ t, exec i s = .next t ∧ WritesBlock i.operands
      (fun r c => mixed (W r c) (interSample i.operands s.mem r c) (P r c)) s t :=
  iipred_result hm hr hi _ fun r c hrow hcol => by rw [hW, hP r c hrow hcol]

/-- A directional `IIPRED` command blends samples that satisfy the equations of its mode. -/
theorem iipred_directional_result {i : Instr} {s : State} (hm : s.mem.wf = true) (hr : Ready i s)
    (hi : i.ii = true) (hd : directionalMode i.mode = true) {W : Nat → Nat → Nat}
    (hW : ∀ r c, weight i.mode i.operands r c = W r c) :
    ∃ t P, exec i s = .next t
      ∧ IsDirectional i.mode (side i.operands) (contextAbove i.operands s.mem)
          (contextLeft i.operands s.mem) P
      ∧ WritesBlock i.operands
          (fun r c => mixed (W r c) (interSample i.operands s.mem r c) (P r c)) s t := by
  obtain ⟨t, hexec, hwrites⟩ := iipred_writes hm hr hi hW fun _ _ _ _ => rfl
  exact ⟨t, _, hexec, intraOf_directional true i.mode hd i.operands s, hwrites⟩

/-- Settles O28: the prediction is R151's mean at every position, and weight 128 halves the sum. -/
theorem iipredDcAveragesWithTheMean : Obligations.IipredDcAveragesWithTheMean := by
  intro o s hm hr
  obtain ⟨t, hexec, hwrites⟩ :=
    iipred_writes hm hr rfl (weight_dc o) fun r c _ _ => intraOf_dc true o s r c
  exact ⟨selectedBy _, t, hexec, hwrites.congr fun _ _ _ _ => mixed_128 _ _⟩

/-- Settles O29: the prediction is the above sample of the column, the weight the row's. -/
theorem iipredVBlendsByRow : Obligations.IipredVBlendsByRow :=
  fun o s hm hr => ⟨selectedBy _,
    iipred_writes hm hr rfl (weight_v o) fun _ _ _ hcol => intraOf_v true o s hcol⟩

/-- Settles O30: the prediction is the left sample of the row, the weight the column's. -/
theorem iipredHBlendsByColumn : Obligations.IipredHBlendsByColumn :=
  fun o s hm hr => ⟨selectedBy _,
    iipred_writes hm hr rfl (weight_h o) fun _ _ hrow _ => intraOf_h true o s hrow⟩

/-- Settles O31: the prediction is R154's clamped sum, and weight 128 halves the sum. -/
theorem iipredTmAveragesWithTheClampedSum : Obligations.IipredTmAveragesWithTheClampedSum := by
  intro o s hm hr
  obtain ⟨t, hexec, hwrites⟩ := iipred_writes hm hr rfl (weight_tm o)
    fun _ _ hrow hcol => intraOf_tm_eq_tmOf true o s hrow hcol
  exact ⟨selectedBy _, t, hexec, hwrites.congr fun _ _ _ _ => mixed_128 _ _⟩

/-- Settles O32: the D45 square at the weights of R209. -/
theorem iipredD45BlendsByBothAxes : Obligations.IipredD45BlendsByBothAxes :=
  fun o _ hm hr => ⟨selectedBy _, iipred_directional_result hm hr rfl rfl (weight_d45 o)⟩

/-- Settles O33: the D135 square at the weights of R210. -/
theorem iipredD135BlendsByTheNearerEdge : Obligations.IipredD135BlendsByTheNearerEdge :=
  fun o _ hm hr => ⟨selectedBy _, iipred_directional_result hm hr rfl rfl (weight_d135 o)⟩

/-- Settles O34: the D117 square at the weights of R211. -/
theorem iipredD117BlendsMostlyByRow : Obligations.IipredD117BlendsMostlyByRow :=
  fun o _ hm hr => ⟨selectedBy _, iipred_directional_result hm hr rfl rfl (weight_d117 o)⟩

/-- Settles O35: the D153 square at the weights of R212. -/
theorem iipredD153BlendsMostlyByColumn : Obligations.IipredD153BlendsMostlyByColumn :=
  fun o _ hm hr => ⟨selectedBy _, iipred_directional_result hm hr rfl rfl (weight_d153 o)⟩

/-- Settles O36: the D27 square at the weights of R213. -/
theorem iipredD27BlendsMostlyByColumn : Obligations.IipredD27BlendsMostlyByColumn :=
  fun o _ hm hr => ⟨selectedBy _, iipred_directional_result hm hr rfl rfl (weight_d27 o)⟩

/-- Settles O37: the D63 square at the weights of R214. -/
theorem iipredD63BlendsMostlyByRow : Obligations.IipredD63BlendsMostlyByRow :=
  fun o _ hm hr => ⟨selectedBy _, iipred_directional_result hm hr rfl rfl (weight_d63 o)⟩

end Sys2Proof.Machine

/-! Proofs about exceptions: what a step does to ERR and CAUSE, and what a halted engine does (60_exceptions.md). -/

namespace Sys2Proof.Machine

/-! ## ERR and CAUSE over one step -/

/-- A step keeps ERR and CAUSE, takes a fault on a presented descriptor, or applies reset. -/
theorem step_err_cause_cases {s t : State} (h : step s = .next t) :
    (t.err = s.err ∧ t.cause = s.cause)
      ∨ (s.err = false ∧ ∃ d c rest, s.host = .issue d :: rest ∧ c ≠ .none ∧
          t = raiseFault c { s with host := rest })
      ∨ ∃ rest, s.host = .reset :: rest ∧ t = applyReset { s with host := rest } := by
  rcases step_cases h with ⟨-, rfl⟩ | ⟨a, rest, hhost, hact⟩
  · exact .inl ⟨rfl, rfl⟩
  rcases hact with rfl | ⟨d, c, rfl, herr, hc, rfl⟩ | ⟨d, i, -, -, -, rfl⟩ | ⟨x, v, -, -, rfl⟩ | ⟨rfl, rfl⟩
  · exact .inl ⟨rfl, rfl⟩
  · exact .inr (.inl ⟨herr, d, c, rest, hhost, hc, rfl⟩)
  · exact .inl ⟨perform_err .., perform_cause ..⟩
  · exact .inl ⟨rfl, rfl⟩
  · exact .inr (.inr ⟨rest, hhost, rfl⟩)

/-- Settles O8: of the three things a step can do to ERR, only the fault sets it. -/
theorem faultChangesOnlyErrAndCause : Obligations.FaultChangesOnlyErrAndCause := by
  intro s t h herr hset
  rcases step_err_cause_cases h with ⟨hkeep, -⟩ | ⟨-, d, c, rest, hhost, hc, rfl⟩ | ⟨rest, -, rfl⟩
  · simp [hkeep, herr] at hset
  · exact ⟨⟨d, hhost⟩, hc, rfl⟩
  · simp at hset

/-- Settles O9: from ERR 1 no step takes a fault, so a step keeps both registers or applies reset. -/
theorem onlyResetLeavesTheFaultedState : Obligations.OnlyResetLeavesTheFaultedState := by
  intro s t h herr
  rcases step_err_cause_cases h with ⟨hkeep, hcause⟩ | ⟨hrun, -⟩ | ⟨rest, hhost, rfl⟩
  · exact .inl ⟨hkeep.trans herr, hcause⟩
  · simp [herr] at hrun
  · exact .inr ⟨rest, hhost, rfl, rfl, rfl, rfl⟩

/-! ## The halted engine -/

theorem rejectCommand_of_err {c : Cause} {s : State} (h : s.err = true) : rejectCommand c s = .next s :=
  if_pos h

/-- A halted engine discards a descriptor, whether or not it decodes (R235). -/
theorem presentCommand_of_err {d : Descriptor} {s : State} (h : s.err = true) :
    presentCommand d s = .next s := by
  rw [presentCommand]
  cases decode d with
  | error c => exact rejectCommand_of_err h
  | ok i => exact exec_of_err h

/-- Settles O7: the step takes the descriptor off the list and the halted engine discards it. -/
theorem haltedEngineDiscardsTheCommand : Obligations.HaltedEngineDiscardsTheCommand :=
  fun _ _ _ hhost herr => (step_issue hhost).trans (presentCommand_of_err herr)

end Sys2Proof.Machine

/-! Proofs about reset, the host's other actions, and the order of independent commands
(70_reset_and_hazards.md). -/

namespace Sys2Proof.Machine

/-! ## The host's actions -/

theorem step_of_host_cons {s : State} {a : HostAction} {rest : List HostAction} (h : s.host = a :: rest) :
    step s = hostAction a { s with host := rest } := by
  simp only [step, h]

theorem step_of_host_nil {s : State} (h : s.host = []) : step s = .next s := by
  simp only [step, h, idle]

theorem hostAccess_of_admits {a : Word} {s : State} (h : admits s.cfg a = true) (after : State) :
    hostAccess a s after = .next after := if_pos h

theorem hostAccess_of_absent {a : Word} {s : State} (h : admits s.cfg a = false) (after : State) :
    hostAccess a s after = .fault (.absentHostAddress a) := if_neg (by simp [h])

/-- Settles O11: both accesses need the address to exist, and a write is a write to a canonical memory. -/
theorem hostAccessesOneSample : Obligations.HostAccessesOneSample := by
  intro s rest a v hm
  refine ⟨fun hhost ha => ?_, fun hhost ha => ?_, fun hhost ha => ?_⟩
  · refine ⟨_, (step_of_host_cons hhost).trans (hostAccess_of_admits ha _), ?_, fun b hb => ?_,
      rfl, rfl, rfl, rfl, rfl⟩
    · exact (Memory.read_write hm a a v).trans (if_pos rfl)
    · exact (Memory.read_write hm a b v).trans (if_neg hb.symm)
  · exact (step_of_host_cons hhost).trans (hostAccess_of_admits ha _)
  · rcases hhost with hwrite | hread
    · exact (step_of_host_cons hwrite).trans (hostAccess_of_absent ha _)
    · exact (step_of_host_cons hread).trans (hostAccess_of_absent ha _)

/-- Settles O10: the step is `applyReset` on the state without the action. -/
theorem resetClearsErrAndCause : Obligations.ResetClearsErrAndCause :=
  fun s rest hhost =>
    ⟨applyReset { s with host := rest }, step_of_host_cons hhost, rfl, rfl, rfl, rfl, rfl⟩

/-- Settles O12: the two reads answer the state without the action, and an idle step the state itself. -/
theorem statusReadsAndIdlingHaveNoEffect : Obligations.StatusReadsAndIdlingHaveNoEffect :=
  fun _ _ => ⟨fun hhost => hhost.elim step_of_host_cons step_of_host_cons, step_of_host_nil⟩

/-! ## Independent commands -/

section

variable {i j : Instr} {s t u t' : State}

theorem wf_of_exec (hm : s.mem.wf = true) (hi : Ready i s) (ht : exec i s = .next t) :
    t.mem.wf = true := by
  obtain rfl := eq_perform_of_exec hi ht
  exact wf_writeBack _ _ hm

theorem Ready.of_exec (hj : Ready j s) (hi : Ready i s) (ht : exec i s = .next t) : Ready j t := by
  obtain rfl := eq_perform_of_exec hi ht
  exact hj.perform _ _ _

/-- After `i`, which writes nothing that `j` reads, `j` writes what it would have written first, and leaves the
rest as `i` left it. -/
theorem read_of_exec_after_exec (hm : s.mem.wf = true) (hi : Ready i s) (hj : Ready j s)
    (hreads : ∀ a ∈ writeSet i.operands, a ∉ readSet j.ii j.operands)
    (ht : exec i s = .next t) (hu : exec j t = .next u) (ht' : exec j s = .next t') (a : Word) :
    u.mem.read a = if a ∈ writeSet j.operands then t'.mem.read a else t.mem.read a := by
  have hmt : t.mem.wf = true := wf_of_exec hm hi ht
  have hagree : ∀ x ∈ readSet j.ii j.operands, t.mem.read x = s.mem.read x := fun x hx =>
    (commandsKeepEverythingElse i s t hm ht).1 x fun hw => hreads x hw hx
  split
  next ha =>
    exact resultDependsOnTheReadSetAlone j t s u t' hmt hm (hj.of_exec hi ht) hj hagree hu ht' a ha
  next ha => exact (commandsKeepEverythingElse j t u hmt hu).1 a ha

end

/-- Settles O46: in either order an address holds what the one command that writes it stores in `s`. -/
theorem independentCommandsCommute : Obligations.IndependentCommandsCommute := by
  intro i j s t u t' u' hm hi hj hij hji ht hu ht' hu' a
  rw [read_of_exec_after_exec hm hi hj (fun x hx => (hij x hx).1) ht hu ht',
    read_of_exec_after_exec hm hj hi (fun x hx => (hji x hx).1) ht' hu' ht]
  by_cases haj : a ∈ writeSet j.operands
  · rw [if_pos haj, if_neg (hji a haj).2]
  · rw [if_neg haj]
    by_cases hai : a ∈ writeSet i.operands
    · rw [if_pos hai]
    · rw [if_neg hai, (commandsKeepEverythingElse i s t hm ht).1 a hai,
        (commandsKeepEverythingElse j s t' hm ht').1 a haj]

end Sys2Proof.Machine
